-- ==== Sys2Proof/Word.lean ====
section
/-!
DEFINITION. The word types of the ISA (spec/00_scope.md R5, R6) and their plainest arithmetic.
-/

namespace Sys2Proof

/-- A register, a timer, a memory byte or a display byte (R5: 8 bits). -/
abbrev Byte := BitVec 8

/-- An instruction word, the program counter, the index register or a stack entry (R5: 16 bits). -/
abbrev Word := BitVec 16

/-- A 4-bit field of an instruction word (R70). -/
abbrev Nibble := BitVec 4

/-- A register index 0x0 to 0xF, as the fields `x` and `y` hold it (R20, R70). -/
abbrev Reg := BitVec 4

/-- A 12-bit address immediate `nnn` (R70). -/
abbrev Addr := BitVec 12

/-- The index of VF, the flag register (R8, R21). -/
abbrev Reg.vf : Reg := 0xF#4

/-- `zext_16` of a 12-bit address (R8, R73). -/
def Addr.toWord (a : Addr) : Word := a.zeroExtend 16

/-- `zext_8` of a 4-bit key (R8). -/
def Nibble.toByte (k : Nibble) : Byte := k.zeroExtend 8

end Sys2Proof
end

