-- ==== Sys2Proof/Syntax.lean ====
section
/-!
DEFINITION. The 35 instructions of spec/opcode_table.json, one constructor per row, in the table's order.
Fields are named as in spec/30_encoding.md R70.
-/

namespace Sys2Proof

/-- The instructions of spec/30_encoding.md R75. Fields an instruction does not read (R78: `y` of SHR and SHL, `nnn` of
SYS) are kept, so that encoding loses no bit (R87). -/
inductive Instr where
  | cls
  | ret
  | sys (nnn : Addr)
  | jp (nnn : Addr)
  | call (nnn : Addr)
  | seVB (x : Reg) (nn : Byte)
  | sneVB (x : Reg) (nn : Byte)
  | seVV (x y : Reg)
  | ldVB (x : Reg) (nn : Byte)
  | addVB (x : Reg) (nn : Byte)
  | ldVV (x y : Reg)
  | orVV (x y : Reg)
  | andVV (x y : Reg)
  | xorVV (x y : Reg)
  | addVV (x y : Reg)
  | sub (x y : Reg)
  | shr (x y : Reg)
  | subn (x y : Reg)
  | shl (x y : Reg)
  | sneVV (x y : Reg)
  | ldI (nnn : Addr)
  | jpV0 (nnn : Addr)
  | rnd (x : Reg) (nn : Byte)
  | drw (x y : Reg) (n : Nibble)
  | skp (x : Reg)
  | sknp (x : Reg)
  | ldVDT (x : Reg)
  | ldVK (x : Reg)
  | ldDTV (x : Reg)
  | ldSTV (x : Reg)
  | addI (x : Reg)
  | ldF (x : Reg)
  | ldB (x : Reg)
  | ldMemV (x : Reg)
  | ldVMem (x : Reg)
  deriving DecidableEq, Repr

end Sys2Proof
end

