-- ==== Sys2Proof/WellFormed.lean ====
section
/-!
DEFINITION. Which terms of `Instr` stand for an instruction word of the ISA.
The field types rule out everything but one case: the words 0x00E0 and 0x00EE are CLS and RET, so SYS never has those
addresses (spec/30_encoding.md R76).
-/

namespace Sys2Proof

/-- The check of R76: SYS nnn is every word of family 0 except 0x00E0 and 0x00EE. -/
def Instr.wf : Instr → Bool
  | .sys nnn => nnn != 0x0E0#12 && nnn != 0x0EE#12
  | .cls => true
  | .ret => true
  | .jp _ => true
  | .call _ => true
  | .seVB _ _ => true
  | .sneVB _ _ => true
  | .seVV _ _ => true
  | .ldVB _ _ => true
  | .addVB _ _ => true
  | .ldVV _ _ => true
  | .orVV _ _ => true
  | .andVV _ _ => true
  | .xorVV _ _ => true
  | .addVV _ _ => true
  | .sub _ _ => true
  | .shr _ _ => true
  | .subn _ _ => true
  | .shl _ _ => true
  | .sneVV _ _ => true
  | .ldI _ => true
  | .jpV0 _ => true
  | .rnd _ _ => true
  | .drw _ _ _ => true
  | .skp _ => true
  | .sknp _ => true
  | .ldVDT _ => true
  | .ldVK _ => true
  | .ldDTV _ => true
  | .ldSTV _ => true
  | .addI _ => true
  | .ldF _ => true
  | .ldB _ => true
  | .ldMemV _ => true
  | .ldVMem _ => true

end Sys2Proof
end

