-- ==== Sys2Proof/Decode.lean ====
section
/-!
DEFINITION. Field extraction, the dispatch matrix, decoding of bytes, and the encoder
(spec/30_encoding.md R70 to R79, R83, R87, R88; spec/20_memory.md R56).
-/

namespace Sys2Proof

/-! ## Fields (R70) -/

/-- `op`, w[15:12]. -/
def op (w : Word) : Nibble := w.extractLsb' 12 4

/-- `x`, w[11:8]. -/
def fieldX (w : Word) : Reg := w.extractLsb' 8 4

/-- `y`, w[7:4]. -/
def fieldY (w : Word) : Reg := w.extractLsb' 4 4

/-- `n`, w[3:0]. -/
def fieldN (w : Word) : Nibble := w.extractLsb' 0 4

/-- `nn`, w[7:0]. -/
def fieldNN (w : Word) : Byte := w.extractLsb' 0 8

/-- `nnn`, w[11:0]. -/
def fieldNNN (w : Word) : Addr := w.extractLsb' 0 12

/-! ## Decode (R75 to R79, R83) -/

/-- Why a decoder gives no instruction. -/
inductive Reject where
  /-- The word is in one of the unsupported rows of R75 (R79, R84). -/
  | unsupportedOpcode
  /-- Fewer than the two bytes of an instruction (R74) were given; a tick never meets this, since it fetches two. -/
  | truncated
  deriving DecidableEq, Repr

/-- Family 0 selects on the whole word (R76). -/
def decodeFamily0 (w : Word) : Except Reject Instr :=
  if w = 0x00E0#16 then .ok .cls
  else if w = 0x00EE#16 then .ok .ret
  else .ok (.sys (fieldNNN w))

/-- Family 5: only n = 0 is an instruction (R77). -/
def decodeFamily5 (w : Word) : Except Reject Instr :=
  if fieldN w = 0x0#4 then .ok (.seVV (fieldX w) (fieldY w)) else .error .unsupportedOpcode

/-- Family 8 selects on the bottom nibble (R75). -/
def decodeFamily8 (w : Word) : Except Reject Instr :=
  match fieldN w with
  | 0x0#4 => .ok (.ldVV (fieldX w) (fieldY w))
  | 0x1#4 => .ok (.orVV (fieldX w) (fieldY w))
  | 0x2#4 => .ok (.andVV (fieldX w) (fieldY w))
  | 0x3#4 => .ok (.xorVV (fieldX w) (fieldY w))
  | 0x4#4 => .ok (.addVV (fieldX w) (fieldY w))
  | 0x5#4 => .ok (.sub (fieldX w) (fieldY w))
  | 0x6#4 => .ok (.shr (fieldX w) (fieldY w))
  | 0x7#4 => .ok (.subn (fieldX w) (fieldY w))
  | 0xE#4 => .ok (.shl (fieldX w) (fieldY w))
  | _ => .error .unsupportedOpcode

/-- Family 9: only n = 0 is an instruction (R77). -/
def decodeFamily9 (w : Word) : Except Reject Instr :=
  if fieldN w = 0x0#4 then .ok (.sneVV (fieldX w) (fieldY w)) else .error .unsupportedOpcode

/-- Family E selects on the low byte (R75). -/
def decodeFamilyE (w : Word) : Except Reject Instr :=
  match fieldNN w with
  | 0x9E#8 => .ok (.skp (fieldX w))
  | 0xA1#8 => .ok (.sknp (fieldX w))
  | _ => .error .unsupportedOpcode

/-- Family F selects on the low byte (R75). -/
def decodeFamilyF (w : Word) : Except Reject Instr :=
  match fieldNN w with
  | 0x07#8 => .ok (.ldVDT (fieldX w))
  | 0x0A#8 => .ok (.ldVK (fieldX w))
  | 0x15#8 => .ok (.ldDTV (fieldX w))
  | 0x18#8 => .ok (.ldSTV (fieldX w))
  | 0x1E#8 => .ok (.addI (fieldX w))
  | 0x29#8 => .ok (.ldF (fieldX w))
  | 0x33#8 => .ok (.ldB (fieldX w))
  | 0x55#8 => .ok (.ldMemV (fieldX w))
  | 0x65#8 => .ok (.ldVMem (fieldX w))
  | _ => .error .unsupportedOpcode

/-- Decoding of one word, total over all 65536 of them: the dispatch matrix of R75. -/
def decode (w : Word) : Except Reject Instr :=
  match op w with
  | 0x0#4 => decodeFamily0 w
  | 0x1#4 => .ok (.jp (fieldNNN w))
  | 0x2#4 => .ok (.call (fieldNNN w))
  | 0x3#4 => .ok (.seVB (fieldX w) (fieldNN w))
  | 0x4#4 => .ok (.sneVB (fieldX w) (fieldNN w))
  | 0x5#4 => decodeFamily5 w
  | 0x6#4 => .ok (.ldVB (fieldX w) (fieldNN w))
  | 0x7#4 => .ok (.addVB (fieldX w) (fieldNN w))
  | 0x8#4 => decodeFamily8 w
  | 0x9#4 => decodeFamily9 w
  | 0xA#4 => .ok (.ldI (fieldNNN w))
  | 0xB#4 => .ok (.jpV0 (fieldNNN w))
  | 0xC#4 => .ok (.rnd (fieldX w) (fieldNN w))
  | 0xD#4 => .ok (.drw (fieldX w) (fieldY w) (fieldN w))
  | 0xE#4 => decodeFamilyE w
  | 0xF#4 => decodeFamilyF w
  -- every one of the 16 values of op has a handler (R84): no word comes here
  | _ => .error .unsupportedOpcode

/-- The big-endian word of two bytes, the one at the lower address first (R56). -/
def wordOfBytes (hi lo : Byte) : Word := hi ++ lo

/-- Decoding at the front of any byte string, big-endian (R56, R74): the instruction and the bytes after it. -/
def decodeBytes : List Byte → Except Reject (Instr × List Byte)
  | hi :: lo :: rest =>
    match decode (wordOfBytes hi lo) with
    | .ok i => .ok (i, rest)
    | .error r => .error r
  | _ => .error .truncated

/-! ## Encode (R87) -/

/-- `encode(op, x, y, n)` of R87: the four nibbles side by side. -/
def packXYN (o : Nibble) (x y : Reg) (n : Nibble) : Word := o ++ x ++ y ++ n

/-- Format XB and XS (R74): op, x and a low byte. -/
def packXNN (o : Nibble) (x : Reg) (nn : Byte) : Word := o ++ x ++ nn

/-- Format A (R74): op and an address. -/
def packNNN (o : Nibble) (nnn : Addr) : Word := o ++ nnn

/-- The word of an instruction, from the encoding table (R74, R75, R87). -/
def encode : Instr → Word
  | .cls => 0x00E0#16
  | .ret => 0x00EE#16
  | .sys nnn => packNNN 0x0#4 nnn
  | .jp nnn => packNNN 0x1#4 nnn
  | .call nnn => packNNN 0x2#4 nnn
  | .seVB x nn => packXNN 0x3#4 x nn
  | .sneVB x nn => packXNN 0x4#4 x nn
  | .seVV x y => packXYN 0x5#4 x y 0x0#4
  | .ldVB x nn => packXNN 0x6#4 x nn
  | .addVB x nn => packXNN 0x7#4 x nn
  | .ldVV x y => packXYN 0x8#4 x y 0x0#4
  | .orVV x y => packXYN 0x8#4 x y 0x1#4
  | .andVV x y => packXYN 0x8#4 x y 0x2#4
  | .xorVV x y => packXYN 0x8#4 x y 0x3#4
  | .addVV x y => packXYN 0x8#4 x y 0x4#4
  | .sub x y => packXYN 0x8#4 x y 0x5#4
  | .shr x y => packXYN 0x8#4 x y 0x6#4
  | .subn x y => packXYN 0x8#4 x y 0x7#4
  | .shl x y => packXYN 0x8#4 x y 0xE#4
  | .sneVV x y => packXYN 0x9#4 x y 0x0#4
  | .ldI nnn => packNNN 0xA#4 nnn
  | .jpV0 nnn => packNNN 0xB#4 nnn
  | .rnd x nn => packXNN 0xC#4 x nn
  | .drw x y n => packXYN 0xD#4 x y n
  | .skp x => packXNN 0xE#4 x 0x9E#8
  | .sknp x => packXNN 0xE#4 x 0xA1#8
  | .ldVDT x => packXNN 0xF#4 x 0x07#8
  | .ldVK x => packXNN 0xF#4 x 0x0A#8
  | .ldDTV x => packXNN 0xF#4 x 0x15#8
  | .ldSTV x => packXNN 0xF#4 x 0x18#8
  | .addI x => packXNN 0xF#4 x 0x1E#8
  | .ldF x => packXNN 0xF#4 x 0x29#8
  | .ldB x => packXNN 0xF#4 x 0x33#8
  | .ldMemV x => packXNN 0xF#4 x 0x55#8
  | .ldVMem x => packXNN 0xF#4 x 0x65#8

/-- The high byte of a word, stored at the lower address (R56). -/
def highByte (w : Word) : Byte := w.extractLsb' 8 8

/-- The low byte of a word, stored at the higher address (R56). -/
def lowByte (w : Word) : Byte := w.extractLsb' 0 8

/-- The bytes of an instruction in memory order (R56, R95). -/
def encodeBytes (i : Instr) : List Byte := [highByte (encode i), lowByte (encode i)]

/-! ## The host's question -/

/-- The instruction word whose bits are `w`, as spec/opcode_table.json numbers them; bits from `nbits` up are 0. -/
def tableWord (nbits w : Nat) : Word := BitVec.ofNat 16 (w % 2 ^ nbits)

/-- What the decoder reads from the bytes of that word, laid out big-endian (R56). -/
def decodeTableWord (nbits w : Nat) : Option Instr :=
  match decodeBytes [highByte (tableWord nbits w), lowByte (tableWord nbits w)] with
  | .ok (i, _) => some i
  | .error _ => none

end Sys2Proof
end

