-- ==== Sys2Proof/Config.lean ====
section
/-!
DEFINITION. What an implementation fixes (spec/00_scope.md R5, spec/92_eei_decisions.md "Parameters left open") and the
one free value, the random byte.
-/

namespace Sys2Proof

/-- The parameter `STACK_UNDERFLOW_POLICY` (R5, R34, D5). -/
inductive StackUnderflowPolicy where
  /-- RET on an empty stack raises `StackUnderflow` (the default). -/
  | fault
  /-- RET on an empty stack changes nothing. -/
  | noop
  deriving DecidableEq, Repr

/-- The parameters a reset takes (R5, R46). The fourth one, `RNG`, is `Config.randomByte`. -/
structure Config where
  /-- `STACK_UNDERFLOW_POLICY`. -/
  stackUnderflowPolicy : StackUnderflowPolicy
  /-- `RESET_ZERO`: whether reset zeroes registers, timers, display and unloaded memory. -/
  resetZero : Bool
  /-- `FONT_ROM`: the 512 bytes at 0x000 to 0x1FF when no ROM image is supplied. -/
  fontRom : Vector Byte 512
  deriving DecidableEq, Repr

/-- DESIGN CHOICE (log entry 4). The parameter `RNG` (R43, D14): the byte the `n`-th call of `RandomByte()` returns, under
no law. It has no body, so no proof can know a value of it. Safe for a claim about one run; a claim that compares two
states with equal `draws` counts on both seeing the same byte (unsafe, as the log entry says). -/
opaque Config.randomByte : Nat → Byte

end Sys2Proof
end

