-- ==== Sys2Proof/Machine/State.lean ====
section
/-!
DEFINITION. The state of the block as plain data (spec/10_state.md R20 to R47), the state after reset, and the reasons a
step can stop.
-/

namespace Sys2Proof.Machine

/-- The 4096 bytes of `M` (R36): the bytes that differ from what an unlisted address reads as, by rising address.
What an unlisted address reads as is `Memory.background`; the canonical form is `Memory.wf`. -/
abbrev Memory := List Host.Cell

/-- The display surface `FB` (R37): 32 rows of 8 bytes, the most significant bit of a byte leftmost. -/
abbrev Display := Vector (Vector Byte 8) 32

/-- The cause of a terminal condition (R191). -/
inductive ErrorCode where
  | unsupportedOpcode
  | stackOverflow
  | stackUnderflow
  | programCounterOutOfRange
  | addressOutOfRange
  | keyWaitCancelled
  deriving DecidableEq, Repr

/-- The error record of R193. `word` is absent for `programCounterOutOfRange` alone: nothing was fetched. -/
structure ErrorRecord where
  code : ErrorCode
  addr : Word
  word : Option Word
  deriving DecidableEq, Repr

/-- The answer of the keyboard to one request (R42, D13). -/
inductive KeyAnswer where
  | key (k : Nibble)
  | cancel
  deriving DecidableEq, Repr

/-- The three instructions that use the keyboard port: Ex9E, ExA1 and Fx0A (R42). -/
inductive KeyOp where
  | skp
  | sknp
  | load
  deriving DecidableEq, Repr

/-- The engine status of R35. `awaitKey` names the instruction whose request is open: its kind and its field `x`
(DESIGN CHOICE, log entry 6; safe: R35 gives the status no content). -/
inductive Status where
  | running
  | awaitKey (op : KeyOp) (x : Reg)
  | halted (record : ErrorRecord)
  | error (record : ErrorRecord)
  deriving DecidableEq, Repr

/-- The whole state of the block, R47, and three fields of the model's own (the last three). -/
structure State where
  /-- V0 to VF (R20). -/
  v : Vector Byte 16
  /-- The index register I (R28). -/
  i : Word
  /-- The program counter PC (R24). -/
  pc : Word
  /-- The delay timer DT (R29). -/
  dt : Byte
  /-- The sound timer ST (R29). -/
  st : Byte
  /-- The call stack, top first; its length is SP (R32, R33; DESIGN CHOICE, log entry 7; safe). -/
  stack : List Word
  /-- The memory M (R36). -/
  mem : Memory
  /-- The display surface FB (R37). -/
  fb : Display
  /-- The engine status (R35). -/
  status : Status
  /-- The model's own: what the keyboard answers to the next requests, oldest first; none listed, none given yet
  (DESIGN CHOICE, log entry 5; safe: R42 lets the keyboard answer anything, or never). -/
  keyAnswers : List KeyAnswer
  /-- The model's own: how many random bytes have been drawn (DESIGN CHOICE, log entry 4). -/
  draws : Nat
  /-- The model's own: the parameter STACK_UNDERFLOW_POLICY, which no step changes (R47; DESIGN CHOICE, log entry 3;
  safe: a statement about every state holds for both policies). -/
  underflowPolicy : StackUnderflowPolicy
  deriving DecidableEq, Repr

/-- The faults of a step: none. The spec gives every condition that ends a run the state it leaves (R190 to R196), so each
one is a next state whose status is `halted` or `error`. -/
inductive Fault where
  deriving DecidableEq, Repr

/-- The refusals of a step. -/
inductive Refusal where
  /-- An instruction without a meaning yet; only a refused arm of `exec` raises it (no arm does now). Safe. -/
  | notModelled (mnemonic : String)
  /-- A tick in a terminal status: outside the contract, "the model has no step for it" (R44, R206, D16). `step` raises it.
  Safe: the spec gives such a tick no meaning. -/
  | terminalStatus
  deriving DecidableEq, Repr

/-- The machine right after reset with the default parameters and no image loaded (R46, R215 to R217). PC, the empty
stack and `running` are the spec's. The zeros are the default of RESET_ZERO (DESIGN CHOICE, log entry 1; unsafe), the
listed-nothing memory is FONT_ROM's default and zeros (PRESUMED, log entry 2; unsafe), `fault` is the default policy (log
entry 3). `State.boot` gives every other reset the spec allows. -/
def State.reset : State where
  v := Vector.replicate 16 0#8
  i := 0#16
  pc := 0x200#16
  dt := 0#8
  st := 0#8
  stack := []
  mem := []
  fb := Vector.replicate 32 (Vector.replicate 8 0#8)
  status := .running
  keyAnswers := []
  draws := 0
  underflowPolicy := .fault

end Sys2Proof.Machine
end

