-- ==== Sys2Proof/Machine/Ops.lean ====
section
/-!
DEFINITION. The named operations over memory, registers, the call stack, the display port, the keyboard port and the
random port (spec/00_scope.md R8), and raising an error (spec/60_exceptions.md R190 to R198).
-/

namespace Sys2Proof.Machine

/-- What a step answers. -/
abbrev Result := Host.Outcome State Fault Refusal

/-! ## Memory (R36, R50 to R54) -/

/-- The number of addresses, 0x000 to 0xFFF (R50). -/
def memSize : Nat := 4096

/-- The default font glyphs of D10, one row per hex digit (PRESUMED, log entry 2: the spec takes them from general
knowledge; unsafe for a claim about pixels, safe for every other). -/
def fontGlyphs : List (List Byte) :=
  [[0xF0, 0x90, 0x90, 0x90, 0xF0], [0x20, 0x60, 0x20, 0x20, 0x70],
   [0xF0, 0x10, 0xF0, 0x80, 0xF0], [0xF0, 0x10, 0xF0, 0x10, 0xF0],
   [0x90, 0x90, 0xF0, 0x10, 0x10], [0xF0, 0x80, 0xF0, 0x10, 0xF0],
   [0xF0, 0x80, 0xF0, 0x90, 0xF0], [0xF0, 0x10, 0x20, 0x40, 0x40],
   [0xF0, 0x90, 0xF0, 0x90, 0xF0], [0xF0, 0x90, 0xF0, 0x10, 0xF0],
   [0xF0, 0x90, 0xF0, 0x90, 0x90], [0xE0, 0x90, 0xE0, 0x90, 0xE0],
   [0xF0, 0x80, 0x80, 0x80, 0xF0], [0xE0, 0x90, 0x90, 0x90, 0xE0],
   [0xF0, 0x80, 0xF0, 0x80, 0xF0], [0xF0, 0x80, 0xF0, 0x80, 0x80]]

/-- What an unlisted address reads as: glyph `d` of the default FONT_ROM at `d*5`, and 0 everywhere else (R46, R51, D10
and RESET_ZERO's default; log entries 1 and 2). -/
def Memory.background (a : Nat) : Byte :=
  (fontGlyphs.getD (a / 5) []).getD (a % 5) 0#8

/-- The byte at an address (R8 `MemRead`). Every access of the machine checks its range first (R53). -/
def Memory.read : Memory → Nat → Byte
  | [], a => Memory.background a
  | cell :: rest, a => if cell.1 = a then cell.2 else Memory.read rest a

/-- Puts a cell before the first one of a higher address. -/
def Memory.insert (a : Nat) (b : Byte) : Memory → Memory
  | [] => [(a, b)]
  | cell :: rest => if a < cell.1 then (a, b) :: cell :: rest else cell :: Memory.insert a b rest

/-- The list without the address. -/
def Memory.erase (a : Nat) : Memory → Memory
  | [] => []
  | cell :: rest => if cell.1 = a then Memory.erase a rest else cell :: Memory.erase a rest

/-- The memory after a byte is stored (R8 `MemWrite`). It keeps the canonical form: a byte equal to what the unlisted
address reads as is not listed. An address above 0xFFF names no byte (R50) and nothing is stored there; the machine checks
the range before it stores (R53; log entry 11). -/
def Memory.write (m : Memory) (a : Nat) (b : Byte) : Memory :=
  if a < memSize then
    if b = Memory.background a then Memory.erase a m else Memory.insert a b (Memory.erase a m)
  else m

/-- The cells rise strictly from address `lo` on, stay in the address space, and none equals its background. -/
def Memory.canonicalFrom : Nat → Memory → Bool
  | _, [] => true
  | lo, cell :: rest =>
    decide (lo ≤ cell.1) && decide (cell.1 < memSize) && (cell.2 != Memory.background cell.1)
      && Memory.canonicalFrom (cell.1 + 1) rest

/-- The canonical form of a memory. -/
def Memory.wf (m : Memory) : Bool := Memory.canonicalFrom 0 m

/-- Bytes stored one after another from an address up (R57). -/
def Memory.writeBytes (m : Memory) (a : Nat) : List Byte → Memory
  | [] => m
  | b :: rest => Memory.writeBytes (Memory.write m a b) (a + 1) rest

/-- `n` bytes read from an address up (R57). -/
def Memory.readBytes (m : Memory) (a n : Nat) : List Byte :=
  (List.range n).map fun k => Memory.read m (a + k)

/-- The big-endian word at an address (R56). -/
def Memory.readWord (m : Memory) (a : Nat) : Word :=
  wordOfBytes (Memory.read m a) (Memory.read m (a + 1))

/-! ## One setter per field -/

/-- `I <- w` (R28). -/
def State.setI (s : State) (w : Word) : State := { s with i := w }

/-- `PC <- w` (R24). -/
def State.setPc (s : State) (w : Word) : State := { s with pc := w }

/-- `DT <- b` (R29). -/
def State.setDt (s : State) (b : Byte) : State := { s with dt := b }

/-- `ST <- b` (R29). -/
def State.setSt (s : State) (b : Byte) : State := { s with st := b }

/-- The call stack replaced (R32). -/
def State.setStack (s : State) (l : List Word) : State := { s with stack := l }

/-- The memory replaced (R36). -/
def State.setMem (s : State) (m : Memory) : State := { s with mem := m }

/-- The display surface replaced (R37). -/
def State.setFb (s : State) (d : Display) : State := { s with fb := d }

/-- The engine status replaced (R35). -/
def State.setStatus (s : State) (x : Status) : State := { s with status := x }

/-- The keyboard's answers to come replaced (log entry 5). -/
def State.setKeyAnswers (s : State) (l : List KeyAnswer) : State := { s with keyAnswers := l }

/-- The count of random draws replaced (log entry 4). -/
def State.setDraws (s : State) (n : Nat) : State := { s with draws := n }

/-- All general registers replaced (R20). -/
def State.setV (s : State) (v : Vector Byte 16) : State := { s with v := v }

/-! ## General registers (R20, R8) -/

/-- `V[x]`. -/
def State.reg (s : State) (x : Reg) : Byte := s.v[x.toNat]

/-- `V[x] <- b`. -/
def State.setReg (s : State) (x : Reg) (b : Byte) : State := s.setV (s.v.set x.toNat b)

/-! ## Call stack (R32 to R34) -/

/-- The most entries the call stack holds (R5 STACK_DEPTH). -/
def stackDepth : Nat := 16

/-- `Push(w)` of R34; `none` is the overflow condition. -/
def pushWord (w : Word) (s : State) : Option State :=
  if s.stack.length < stackDepth then some (s.setStack (w :: s.stack)) else none

/-- `Pop()` of R34; `none` is the empty stack. -/
def popWord (s : State) : Option (Word × State) :=
  match s.stack with
  | [] => none
  | w :: rest => some (w, s.setStack rest)

/-! ## Display port (R37, R41) -/

/-- `fb_read(col, row)`. -/
def fbRead (d : Display) (row : Fin 32) (col : Fin 8) : Byte := d[row][col]

/-- `fb_write(col, row, byte)`. -/
def fbWrite (d : Display) (row : Fin 32) (col : Fin 8) (b : Byte) : Display :=
  d.set row (d[row].set col b)

/-- The surface after `fb_clear()`. -/
def fbBlank : Display := Vector.replicate 32 (Vector.replicate 8 0#8)

/-- Pixel (px, py): bit `7 - (px mod 8)` of `FB[py][px div 8]` (R37). -/
def pixel (d : Display) (px : Fin 64) (py : Fin 32) : Bool :=
  (fbRead d py ⟨px.val / 8, by omega⟩).getLsbD (7 - px.val % 8)

/-! ## Random port (R43) -/

/-- `RandomByte()`: the next free byte, and the state with that draw taken (log entry 4). -/
def drawByte (s : State) : Byte × State :=
  (Config.randomByte s.draws, s.setDraws (s.draws + 1))

/-! ## Errors (R190 to R198) -/

/-- `raise`, shared by every instruction that can raise. It runs in the execute step, where PC holds the address of the
instruction plus 2 (R82), so the record's address is PC - 2 (R34, R193). Only the status changes: no handler, no saved state
but the record (R196, R197). There is no return from it (R198). -/
def raiseError (code : ErrorCode) (word : Word) (s : State) : State :=
  s.setStatus (.error { code := code, addr := s.pc - 2#16, word := some word })

/-- The numeric code of a cause (R191). -/
def ErrorCode.number : ErrorCode → Nat
  | .unsupportedOpcode => 1
  | .stackOverflow => 2
  | .stackUnderflow => 3
  | .programCounterOutOfRange => 4
  | .addressOutOfRange => 5
  | .keyWaitCancelled => 6

/-! ## Keyboard port (R42, R182) -/

/-- The instruction whose key request is open. -/
def KeyOp.instr : KeyOp → Reg → Instr
  | .skp, x => .skp x
  | .sknp, x => .sknp x
  | .load, x => .ldVK x

/-- `KeyWait()` and what the three key instructions do with its answer (R42, R175, R176, R178, R182).
No answer given yet: the status is `awaitKey` and nothing else changes. A key: the request is closed and `onKey` acts.
`Cancel`: `KeyWaitCancelled`, with no effect of the instruction. -/
def keyWait (kind : KeyOp) (x : Reg) (onKey : Nibble → State → State) (s : State) : Result :=
  match s.keyAnswers with
  | [] => .next (s.setStatus (.awaitKey kind x))
  | .key k :: rest => .next (onKey k ((s.setKeyAnswers rest).setStatus .running))
  | .cancel :: rest =>
    .next (raiseError .keyWaitCancelled (encode (kind.instr x)) (s.setKeyAnswers rest))

/-! ## Observations -/

/-- The observation `ST > 0` that a model may expose (R30). No rule reads it. -/
def State.soundTimerActive (s : State) : Bool := decide (0 < s.st.toNat)

end Sys2Proof.Machine
end

