-- ==== Sys2Proof/Machine/Flags.lean ====
section
/-!
DEFINITION. Every flag computation that ends in VF (spec/10_state.md R21, R27).
-/

namespace Sys2Proof.Machine

/-- A flag as VF holds it: 1 or 0 (R27). -/
def flagByte (c : Bool) : Byte := if c then 1#8 else 0#8

/-- The carry of 8xy4: the unwrapped sum exceeds 255 (R136). -/
def carryOut (a b : Byte) : Bool := decide (255 < a.toNat + b.toNat)

/-- The no-borrow flag of 8xy5 and 8xy7: strictly greater (R137, R139). -/
def noBorrow (a b : Byte) : Bool := decide (b.toNat < a.toNat)

/-- The bit SHR shifts out: bit 0 before the shift (R138). -/
def shiftOutRight (a : Byte) : Bool := a.getLsbD 0

/-- The bit SHL shifts out: bit 7 before the shift (R140). -/
def shiftOutLeft (a : Byte) : Bool := a.getLsbD 7

/-- The collision of one target byte: a bit that was set is cleared by the XOR (R167). -/
def collides (old b : Byte) : Bool := (old &&& b) != 0#8

/-- A result in Vx and then a flag in VF, which is written last (R143, D3). -/
def writeWithFlag (s : State) (x : Reg) (r : Byte) (c : Bool) : State :=
  (s.setReg x r).setReg Reg.vf (flagByte c)

end Sys2Proof.Machine
end

