-- ==== Sys2Proof/Machine/Alu.lean ====
section
/-!
DEFINITION. Register loads, arithmetic, logic, shifts and random (spec/41_alu.md R130 to R143). Operands are read before
any write, and VF is written last (R10, R143, D3).
-/

namespace Sys2Proof.Machine

/-- LD Vx, #nn (R130). -/
def execLdVB (x : Reg) (nn : Byte) (s : State) : Result := .next (s.setReg x nn)

/-- ADD Vx, #nn (R131): modulo 256, no flag. -/
def execAddVB (x : Reg) (nn : Byte) (s : State) : Result := .next (s.setReg x (s.reg x + nn))

/-- LD Vx, Vy (R132). -/
def execLdVV (x y : Reg) (s : State) : Result := .next (s.setReg x (s.reg y))

/-- OR Vx, Vy (R133). -/
def execOrVV (x y : Reg) (s : State) : Result := .next (s.setReg x (s.reg x ||| s.reg y))

/-- AND Vx, Vy (R134). -/
def execAndVV (x y : Reg) (s : State) : Result := .next (s.setReg x (s.reg x &&& s.reg y))

/-- XOR Vx, Vy (R135). -/
def execXorVV (x y : Reg) (s : State) : Result := .next (s.setReg x (s.reg x ^^^ s.reg y))

/-- ADD Vx, Vy (R136). -/
def execAddVV (x y : Reg) (s : State) : Result :=
  .next (writeWithFlag s x (s.reg x + s.reg y) (carryOut (s.reg x) (s.reg y)))

/-- SUB Vx, Vy (R137). -/
def execSub (x y : Reg) (s : State) : Result :=
  .next (writeWithFlag s x (s.reg x - s.reg y) (noBorrow (s.reg x) (s.reg y)))

/-- SHR Vx, Vy (R138): y is not read (R78). -/
def execShr (x _y : Reg) (s : State) : Result :=
  .next (writeWithFlag s x (s.reg x >>> 1) (shiftOutRight (s.reg x)))

/-- SUBN Vx, Vy (R139). -/
def execSubn (x y : Reg) (s : State) : Result :=
  .next (writeWithFlag s x (s.reg y - s.reg x) (noBorrow (s.reg y) (s.reg x)))

/-- SHL Vx, Vy (R140): y is not read (R78). -/
def execShl (x _y : Reg) (s : State) : Result :=
  .next (writeWithFlag s x (s.reg x <<< 1) (shiftOutLeft (s.reg x)))

/-- RND Vx, #nn (R141): one draw, masked. -/
def execRnd (x : Reg) (nn : Byte) (s : State) : Result :=
  .next ((drawByte s).2.setReg x ((drawByte s).1 &&& nn))

end Sys2Proof.Machine
end

