-- ==== Sys2Proof/Machine/Operands.lean ====
section
/-!
DEFINITION. The operand forms: the data address I + k with its range check, the register block, the decimal digits, the
skip, and the sprite's place on the display
(spec/20_memory.md R53, R54; spec/40_control_flow.md R120; spec/42_index_memory.md R153 to R156; spec/43_display.md R166).
-/

namespace Sys2Proof.Machine

/-- The effective data address `I + k`, an exact integer (R54, R156). -/
def dataAddr (s : State) (k : Nat) : Nat := s.i.toNat + k

/-- Whether an access to `count` bytes from I up would touch an address above 0xFFF (R53). No byte, no check (R168). -/
def dataOutOfRange (s : State) (count : Nat) : Bool :=
  decide (0 < count) && decide (0xFFF < dataAddr s (count - 1))

/-- A data access of `count` bytes by the instruction `i`: the range check first, and `AddressOutOfRange` before any effect
if it fails (R53, R196, D6); otherwise the instruction's own effect. -/
def checkedAccess (s : State) (count : Nat) (i : Instr) (effect : Result) : Result :=
  match dataOutOfRange s count with
  | true => .next (raiseError .addressOutOfRange (encode i) s)
  | false => effect

/-- A skip: PC advances by a further 2 if the condition holds (R120). -/
def skipIf (c : Bool) (s : State) : State := if c then s.setPc (s.pc + 2#16) else s

/-- V0 to Vx in order (R154). -/
def regBlock (s : State) (x : Reg) : List Byte := s.v.toList.take (x.toNat + 1)

/-- The registers after V0 to Vx are loaded from M[I] up (R155). -/
def loadedBlock (s : State) (x : Reg) : Vector Byte 16 :=
  Vector.ofFn fun k : Fin 16 => if k.val ≤ x.toNat then s.mem.read (dataAddr s k) else s.v[k]

/-- The three decimal digits of a byte, most significant first (R153). -/
def decimalDigits (b : Byte) : List Byte :=
  [BitVec.ofNat 8 (b.toNat / 100), BitVec.ofNat 8 (b.toNat / 10 % 10), BitVec.ofNat 8 (b.toNat % 10)]

/-- The address of the glyph of a byte: five times the whole byte (R152). -/
def glyphAddr (b : Byte) : Word := BitVec.ofNat 16 (b.toNat * 5)

/-- The byte column of a sprite: `(Vx mod 64) div 8` (R166). -/
def spriteCol (vx : Byte) : Fin 8 := ⟨vx.toNat % 64 / 8, by omega⟩

/-- The bit offset of a sprite in its column: `(Vx mod 64) mod 8` (R166). -/
def spriteShift (vx : Byte) : Nat := vx.toNat % 64 % 8

/-- The display row of sprite row `r`: `(Vy + r) mod 32` (R166, R169). -/
def spriteRow (vy : Byte) (r : Nat) : Fin 32 := ⟨(vy.toNat + r) % 32, by omega⟩

/-- The part of a sprite byte that goes to byte column `col` (R166). -/
def spriteLeft (b : Byte) (sh : Nat) : Byte := b >>> sh

/-- The part of a sprite byte that goes to the next byte column; 0 when `sh` is 0 (R166). -/
def spriteRight (b : Byte) (sh : Nat) : Byte := b <<< (8 - sh)

end Sys2Proof.Machine
end

