-- ==== Sys2Proof/Machine/Control.lean ====
section
/-!
DEFINITION. Control flow (spec/40_control_flow.md R110 to R120). PC already holds the address of the instruction plus 2.
-/

namespace Sys2Proof.Machine

/-- RET (R110). The policy decides the empty stack (R34, D5). -/
def execRet (s : State) : Result :=
  match popWord s with
  | some (w, t) => .next (t.setPc w)
  | none =>
    match s.underflowPolicy with
    | .fault => .next (raiseError .stackUnderflow (encode .ret) s)
    | .noop => .next s

/-- SYS nnn (R111): no effect; nnn is not read. -/
def execSys (_nnn : Addr) (s : State) : Result := .next s

/-- JP nnn (R112). -/
def execJp (nnn : Addr) (s : State) : Result := .next (s.setPc nnn.toWord)

/-- CALL nnn (R113). -/
def execCall (nnn : Addr) (s : State) : Result :=
  match pushWord s.pc s with
  | some t => .next (t.setPc nnn.toWord)
  | none => .next (raiseError .stackOverflow (encode (.call nnn)) s)

/-- SE Vx, #nn (R114). -/
def execSeVB (x : Reg) (nn : Byte) (s : State) : Result := .next (skipIf (s.reg x == nn) s)

/-- SNE Vx, #nn (R115). -/
def execSneVB (x : Reg) (nn : Byte) (s : State) : Result := .next (skipIf (s.reg x != nn) s)

/-- SE Vx, Vy (R116). -/
def execSeVV (x y : Reg) (s : State) : Result := .next (skipIf (s.reg x == s.reg y) s)

/-- SNE Vx, Vy (R117). -/
def execSneVV (x y : Reg) (s : State) : Result := .next (skipIf (s.reg x != s.reg y) s)

/-- JP V0, nnn (R118): the offset register is always V0. -/
def execJpV0 (nnn : Addr) (s : State) : Result :=
  .next (s.setPc (nnn.toWord + (s.reg 0x0#4).zeroExtend 16))

end Sys2Proof.Machine
end

