-- ==== Sys2Proof/Machine/Draw.lean ====
section
/-!
DEFINITION. The display instructions and the blit-collision detector (spec/43_display.md R165 to R170).
-/

namespace Sys2Proof.Machine

/-- XORs one contribution onto one target byte; the flag collects collisions (R166, R167). -/
def blitByte (row : Fin 32) (col : Fin 8) (b : Byte) (p : Display × Bool) : Display × Bool :=
  (fbWrite p.1 row col (fbRead p.1 row col ^^^ b), p.2 || collides (fbRead p.1 row col) b)

/-- One sprite row: the left part, then the right part in the next column, which wraps (R166, R169). -/
def blitRow (vx : Byte) (row : Fin 32) (b : Byte) (p : Display × Bool) : Display × Bool :=
  blitByte row (spriteCol vx + 1) (spriteRight b (spriteShift vx))
    (blitByte row (spriteCol vx) (spriteLeft b (spriteShift vx)) p)

/-- The sprite rows `r` on, one byte each, top first; rows wrap modulo 32 (R166, R169). -/
def blitRows (vx vy : Byte) : Nat → List Byte → Display × Bool → Display × Bool
  | _, [], p => p
  | r, b :: rest, p => blitRows vx vy (r + 1) rest (blitRow vx (spriteRow vy r) b p)

/-- The display and the collision flag after a whole sprite (R166). -/
def blit (d : Display) (vx vy : Byte) (sprite : List Byte) : Display × Bool :=
  blitRows vx vy 0 sprite (d, false)

/-- The state after a draw: the display, and then the collision flag in VF (R166, D3). -/
def drawResult (s : State) (drawn : Display × Bool) : Result :=
  .next ((s.setFb drawn.1).setReg Reg.vf (flagByte drawn.2))

/-- CLS (R165). -/
def execCls (s : State) : Result := .next (s.setFb fbBlank)

/-- DRW Vx, Vy, n (R166 to R170): VF is written last, from the old Vx and Vy (D3). -/
def execDrw (x y : Reg) (n : Nibble) (s : State) : Result :=
  checkedAccess s n.toNat (.drw x y n)
    (drawResult s (blit s.fb (s.reg x) (s.reg y) (s.mem.readBytes (dataAddr s 0) n.toNat)))

end Sys2Proof.Machine
end

