-- ==== Sys2Proof/Machine/Index.lean ====
section
/-!
DEFINITION. The index register and the memory instructions (spec/42_index_memory.md R150 to R156). Every range check comes
before any write (R196, D6).
-/

namespace Sys2Proof.Machine

/-- LD I, nnn (R150). -/
def execLdI (nnn : Addr) (s : State) : Result := .next (s.setI nnn.toWord)

/-- ADD I, Vx (R151): modulo 65536, no flag. -/
def execAddI (x : Reg) (s : State) : Result := .next (s.setI (s.i + (s.reg x).zeroExtend 16))

/-- LD F, Vx (R152). -/
def execLdF (x : Reg) (s : State) : Result := .next (s.setI (glyphAddr (s.reg x)))

/-- LD B, Vx (R153). -/
def execLdB (x : Reg) (s : State) : Result :=
  checkedAccess s 3 (.ldB x)
    (.next (s.setMem (s.mem.writeBytes (dataAddr s 0) (decimalDigits (s.reg x)))))

/-- LD [I], Vx (R154): I is unchanged. -/
def execLdMemV (x : Reg) (s : State) : Result :=
  checkedAccess s (x.toNat + 1) (.ldMemV x)
    (.next (s.setMem (s.mem.writeBytes (dataAddr s 0) (regBlock s x))))

/-- LD Vx, [I] (R155): I is unchanged. -/
def execLdVMem (x : Reg) (s : State) : Result :=
  checkedAccess s (x.toNat + 1) (.ldVMem x) (.next (s.setV (loadedBlock s x)))

end Sys2Proof.Machine
end

