-- ==== Sys2Proof/Machine/Keys.lean ====
section
/-!
DEFINITION. The keyboard and timer instructions (spec/44_keys_timers.md R175 to R182).
-/

namespace Sys2Proof.Machine

/-- SKP Vx (R175): waits for a key, then skips if it equals Vx. -/
def execSkp (x : Reg) (s : State) : Result :=
  keyWait .skp x (fun k t => skipIf (k.toByte == t.reg x) t) s

/-- SKNP Vx (R176): waits for a key, then skips if it differs from Vx. -/
def execSknp (x : Reg) (s : State) : Result :=
  keyWait .sknp x (fun k t => skipIf (k.toByte != t.reg x) t) s

/-- LD Vx, K (R178): waits for a key and loads it. -/
def execLdVK (x : Reg) (s : State) : Result :=
  keyWait .load x (fun k t => t.setReg x k.toByte) s

/-- LD Vx, DT (R177). -/
def execLdVDT (x : Reg) (s : State) : Result := .next (s.setReg x s.dt)

/-- LD DT, Vx (R179). -/
def execLdDTV (x : Reg) (s : State) : Result := .next (s.setDt (s.reg x))

/-- LD ST, Vx (R180). -/
def execLdSTV (x : Reg) (s : State) : Result := .next (s.setSt (s.reg x))

end Sys2Proof.Machine
end

