-- ==== Sys2Proof/Machine/Tick.lean ====
section
/-!
DEFINITION. The tick: timers, halt check, fetch, decode, execute (spec/30_encoding.md R80 to R86), and the key wait that can
hold it open (spec/44_keys_timers.md R182).
-/

namespace Sys2Proof.Machine

/-- A timer decremented by one, floored at 0 (R86). -/
def countDown (t : Byte) : Byte := if t = 0#8 then 0#8 else t - 1#8

/-- Step 1: both timers (R86). -/
def tickTimers (s : State) : State := (s.setDt (countDown s.dt)).setSt (countDown s.st)

/-- The test of step 2: PC > 0x0FFE (R81). -/
def pcOutOfRange (s : State) : Bool := decide (0xFFE < s.pc.toNat)

/-- The state of a tick that reports halted: the record holds the PC and no word (R81, R193). -/
def haltOutOfRange (s : State) : State :=
  s.setStatus (.halted { code := .programCounterOutOfRange, addr := s.pc, word := none })

/-- The word step 3 fetches (R56, R82). -/
def fetchWord (s : State) : Word := s.mem.readWord s.pc.toNat

/-- Step 3's advance of PC (R82). -/
def advancePc (s : State) : State := s.setPc (s.pc + 2#16)

/-- Steps 2 to 5, after the timers (R80). Step 6, the refresh, changes no state (R85). -/
def runCycle (s : State) : Result :=
  match pcOutOfRange s with
  | true => .next (haltOutOfRange s)
  | false =>
    match decode (fetchWord s) with
    | .ok i => exec i (advancePc s)
    | .error _ => .next (raiseError .unsupportedOpcode (fetchWord s) (advancePc s))

/-- One tick (R80). -/
def tick (s : State) : Result := runCycle (tickTimers s)

/-- One transition of the block, by its status (R35, R44, R182, R206). Running: a tick. Awaiting a key: the execute step of
the waiting instruction looks at the keyboard again, with the timers and PC as its tick left them. Terminal: no step. -/
def transition (s : State) : Result :=
  match s.status with
  | .running => tick s
  | .awaitKey kind x => exec (kind.instr x) s
  | .halted _ => .refused .terminalStatus
  | .error _ => .refused .terminalStatus

/-- The keyboard's answer arriving after every one it has already given (R42, R182; log entry 5). -/
def State.answerKey (s : State) (a : KeyAnswer) : State := s.setKeyAnswers (s.keyAnswers ++ [a])

/-- Where an instruction can be fetched: PC, or the reset vector if PC is past the top (R55, R81). -/
def fetchablePc (s : State) : Word := if pcOutOfRange s then 0x200#16 else s.pc

/-- The state with an instruction word placed where the next tick fetches it, and a status that lets it tick. -/
def placeWord (s : State) (w : Word) : State :=
  ((s.setStatus .running).setPc (fetchablePc s)).setMem
    (s.mem.writeBytes (fetchablePc s).toNat [highByte w, lowByte w])

end Sys2Proof.Machine
end

