-- ==== Sys2Proof/Machine/Step.lean ====
section
/-!
DEFINITION. The step of the machine and the host's way to place an instruction.
-/

namespace Sys2Proof.Machine

/-- One transition of the block: a whole tick, unless a key wait holds it open (log entry 6). -/
def step (s : State) : Host.Outcome State Fault Refusal := transition s

/-- `s` with the instruction of bits `w` stored where `step` fetches next (log entry 12). -/
def State.withFetchWord (s : State) (nbits w : Nat) : State := placeWord s (tableWord nbits w)

end Sys2Proof.Machine
end

