-- ==== Sys2Proof/Machine/Assembly.lean ====
section
/-!
DEFINITION. The text syntax of the ISA: the assembler and the disassembler (spec/30_encoding.md R89 to R99). They are
software (R3, R207), not a part of the block: nothing of the machine reads this file. Text is a list of characters.
-/

namespace Sys2Proof

/-- Text, a line or a token. -/
abbrev Text := List Char

/-! ## Digits (R91) -/

/-- The value of a hex digit, in upper case. -/
def hexDigit : Char → Option Nibble
  | '0' => some 0x0#4
  | '1' => some 0x1#4
  | '2' => some 0x2#4
  | '3' => some 0x3#4
  | '4' => some 0x4#4
  | '5' => some 0x5#4
  | '6' => some 0x6#4
  | '7' => some 0x7#4
  | '8' => some 0x8#4
  | '9' => some 0x9#4
  | 'A' => some 0xA#4
  | 'B' => some 0xB#4
  | 'C' => some 0xC#4
  | 'D' => some 0xD#4
  | 'E' => some 0xE#4
  | 'F' => some 0xF#4
  | _ => none

/-- The uppercase hex digit of a value. -/
def hexChar (d : Nibble) : Char :=
  ['0', '1', '2', '3', '4', '5', '6', '7', '8', '9', 'A', 'B', 'C', 'D', 'E', 'F'].getD d.toNat '0'

/-! ## Tokens (R89) -/

/-- The characters that separate tokens in a line (DESIGN CHOICE, log entry 15; safe: R89 says only "whitespace"). -/
def isSpace (c : Char) : Bool := c == ' ' || c == '\t' || c == '\r'

/-- The tokens of a line: the runs of characters between separators. `cur` is the run read so far. -/
def tokensFrom (cur : Text) : Text → List Text
  | [] => if cur = [] then [] else [cur]
  | c :: rest =>
    if isSpace c then (if cur = [] then tokensFrom [] rest else cur :: tokensFrom [] rest)
    else tokensFrom (cur ++ [c]) rest

/-- One trailing comma of a token is trimmed (R89). -/
def trimComma (t : Text) : Text := if t.getLast? = some ',' then t.dropLast else t

/-- The tokens of a line as the grammar reads them: in upper case, each without one trailing comma. -/
def lineTokens (line : Text) : List Text :=
  (tokensFrom [] line).map fun t => trimComma (t.map Char.toUpper)

/-- The lines of a text. `cur` is the line read so far. -/
def linesFrom (cur : Text) : Text → List Text
  | [] => [cur]
  | c :: rest => if c = '\n' then cur :: linesFrom [] rest else linesFrom (cur ++ [c]) rest

/-! ## Operands (R90, R91, R92) -/

/-- A register: `V` and one hex digit. -/
def parseReg : Text → Option Reg
  | ['V', d] => hexDigit d
  | _ => none

/-- A byte immediate: `#` and one or two hex digits. -/
def parseByte : Text → Option Byte
  | ['#', d] => (hexDigit d).map fun lo => 0x0#4 ++ lo
  | ['#', c, d] =>
    match hexDigit c, hexDigit d with
    | some hi, some lo => some (hi ++ lo)
    | _, _ => none
  | _ => none

/-- An address: one to three hex digits. -/
def parseAddr : Text → Option Addr
  | [d] => (hexDigit d).map fun lo => 0x00#8 ++ lo
  | [c, d] =>
    match hexDigit c, hexDigit d with
    | some mid, some lo => some (0x0#4 ++ mid ++ lo)
    | _, _ => none
  | [b, c, d] =>
    match hexDigit b, hexDigit c, hexDigit d with
    | some hi, some mid, some lo => some (hi ++ mid ++ lo)
    | _, _, _ => none
  | _ => none

/-- A nibble: one hex digit. -/
def parseNibble : Text → Option Nibble
  | [d] => hexDigit d
  | _ => none

/-! ## The forms (R93) -/

/-- A form with one register. -/
def formReg (f : Reg → Instr) (a : Text) : Option Instr := (parseReg a).map f

/-- A form with an address. -/
def formAddr (f : Addr → Instr) (a : Text) : Option Instr := (parseAddr a).map f

/-- A form with two registers. -/
def formRegReg (f : Reg → Reg → Instr) (a b : Text) : Option Instr :=
  match parseReg a, parseReg b with
  | some x, some y => some (f x y)
  | _, _ => none

/-- A form with a register and a byte. -/
def formRegByte (f : Reg → Byte → Instr) (a b : Text) : Option Instr :=
  match parseReg a, parseByte b with
  | some x, some nn => some (f x nn)
  | _, _ => none

/-- A form with two registers and a nibble. -/
def formRegRegNibble (f : Reg → Reg → Nibble → Instr) (a b c : Text) : Option Instr :=
  match parseReg a, parseReg b, parseNibble c with
  | some x, some y, some n => some (f x y n)
  | _, _, _ => none

/-- The ten forms of LD, told apart by their keywords and by the kind of the last operand. -/
def parseLd (a b : Text) : Option Instr :=
  if a = ['I'] then formAddr .ldI b
  else if a = ['D', 'T'] then formReg .ldDTV b
  else if a = ['S', 'T'] then formReg .ldSTV b
  else if a = ['F'] then formReg .ldF b
  else if a = ['B'] then formReg .ldB b
  else if a = ['[', 'I', ']'] then formReg .ldMemV b
  else if b = ['D', 'T'] then formReg .ldVDT a
  else if b = ['K'] then formReg .ldVK a
  else if b = ['[', 'I', ']'] then formReg .ldVMem a
  else (formRegByte .ldVB a b).or (formRegReg .ldVV a b)

/-- The forms without an operand. -/
def parse0 (m : Text) : Option Instr :=
  if m = ['C', 'L', 'S'] then some .cls
  else if m = ['R', 'E', 'T'] then some .ret
  else none

/-- The forms with one operand. SYS has no encoding with the addresses of CLS and RET (R76, R111; DEDUCED, log entry 16:
R98 leaves no other reading; safe). -/
def parse1 (m a : Text) : Option Instr :=
  if m = ['S', 'Y', 'S'] then (formAddr .sys a).filter Instr.wf
  else if m = ['J', 'P'] then formAddr .jp a
  else if m = ['C', 'A', 'L', 'L'] then formAddr .call a
  else if m = ['S', 'K', 'P'] then formReg .skp a
  else if m = ['S', 'K', 'N', 'P'] then formReg .sknp a
  else none

/-- The forms with two operands. `V0` is a keyword as the first operand of JP (R90). -/
def parse2 (m a b : Text) : Option Instr :=
  if m = ['L', 'D'] then parseLd a b
  else if m = ['A', 'D', 'D'] then
    if a = ['I'] then formReg .addI b else (formRegByte .addVB a b).or (formRegReg .addVV a b)
  else if m = ['S', 'E'] then (formRegByte .seVB a b).or (formRegReg .seVV a b)
  else if m = ['S', 'N', 'E'] then (formRegByte .sneVB a b).or (formRegReg .sneVV a b)
  else if m = ['O', 'R'] then formRegReg .orVV a b
  else if m = ['A', 'N', 'D'] then formRegReg .andVV a b
  else if m = ['X', 'O', 'R'] then formRegReg .xorVV a b
  else if m = ['S', 'U', 'B'] then formRegReg .sub a b
  else if m = ['S', 'H', 'R'] then formRegReg .shr a b
  else if m = ['S', 'U', 'B', 'N'] then formRegReg .subn a b
  else if m = ['S', 'H', 'L'] then formRegReg .shl a b
  else if m = ['R', 'N', 'D'] then formRegByte .rnd a b
  else if m = ['J', 'P'] then if a = ['V', '0'] then formAddr .jpV0 b else none
  else none

/-- The forms with three operands. -/
def parse3 (m a b c : Text) : Option Instr :=
  if m = ['D', 'R', 'W'] then formRegRegNibble .drw a b c else none

/-- The instruction of a line's tokens, if they match a form (R93, R94, D18). -/
def parseTokens : List Text → Option Instr
  | [m] => parse0 m
  | [m, a] => parse1 m a
  | [m, a, b] => parse2 m a b
  | [m, a, b, c] => parse3 m a b c
  | _ => none

/-! ## Assembly (R89, R94, R95) -/

/-- Why text does not assemble. -/
inductive AsmError where
  /-- `MalformedInstructionText(line)` of R94 and R207: the first line that matches no form, counted from 1. -/
  | malformed (line : Nat)
  /-- More than 1792 instructions: refused (R95, D22). -/
  | tooLarge
  deriving DecidableEq, Repr

/-- The instructions of the lines from number `k` on; blank lines are skipped and counted. The first malformed line ends it:
R94 leaves to the caller whether assembly continues after an error (DESIGN CHOICE, log entry 17; safe). -/
def parseLines (k : Nat) : List Text → Except AsmError (List Instr)
  | [] => .ok []
  | line :: rest =>
    if lineTokens line = [] then parseLines (k + 1) rest
    else
      match parseTokens (lineTokens line) with
      | none => .error (.malformed k)
      | some i =>
        match parseLines (k + 1) rest with
        | .ok l => .ok (i :: l)
        | .error e => .error e

/-- The most instructions a program image holds: 3584 bytes. -/
def maxInstructions : Nat := 1792

/-- The bytes a text assembles to: its words, big-endian, without header or padding. It stops at the first malformed line
(DESIGN CHOICE, log entry 17; safe). -/
def assemble (text : Text) : Except AsmError (List Byte) :=
  match parseLines 1 (linesFrom [] text) with
  | .error e => .error e
  | .ok l => if maxInstructions < l.length then .error .tooLarge else .ok (l.flatMap encodeBytes)

/-! ## Disassembly (R96, R97) -/

/-- A register: `V` and its digit. -/
def renderReg (x : Reg) : Text := ['V', hexChar x]

/-- Leading zeros stripped; the last digit stays. -/
def stripZeros : Text → Text
  | '0' :: c :: rest => stripZeros (c :: rest)
  | t => t

/-- A byte: `#` and its hex value. -/
def renderByte (nn : Byte) : Text :=
  '#' :: stripZeros [hexChar (nn.extractLsb' 4 4), hexChar (nn.extractLsb' 0 4)]

/-- An address: its hex value. -/
def renderAddr (a : Addr) : Text :=
  stripZeros [hexChar (a.extractLsb' 8 4), hexChar (a.extractLsb' 4 4), hexChar (a.extractLsb' 0 4)]

/-- A nibble: its digit. -/
def renderNibble (n : Nibble) : Text := [hexChar n]

/-- The mnemonic and the operands of an instruction (R93, R96, D21). -/
def renderTokens : Instr → List Text
  | .cls => [['C', 'L', 'S']]
  | .ret => [['R', 'E', 'T']]
  | .sys nnn => [['S', 'Y', 'S'], renderAddr nnn]
  | .jp nnn => [['J', 'P'], renderAddr nnn]
  | .call nnn => [['C', 'A', 'L', 'L'], renderAddr nnn]
  | .seVB x nn => [['S', 'E'], renderReg x, renderByte nn]
  | .sneVB x nn => [['S', 'N', 'E'], renderReg x, renderByte nn]
  | .seVV x y => [['S', 'E'], renderReg x, renderReg y]
  | .ldVB x nn => [['L', 'D'], renderReg x, renderByte nn]
  | .addVB x nn => [['A', 'D', 'D'], renderReg x, renderByte nn]
  | .ldVV x y => [['L', 'D'], renderReg x, renderReg y]
  | .orVV x y => [['O', 'R'], renderReg x, renderReg y]
  | .andVV x y => [['A', 'N', 'D'], renderReg x, renderReg y]
  | .xorVV x y => [['X', 'O', 'R'], renderReg x, renderReg y]
  | .addVV x y => [['A', 'D', 'D'], renderReg x, renderReg y]
  | .sub x y => [['S', 'U', 'B'], renderReg x, renderReg y]
  | .shr x y => [['S', 'H', 'R'], renderReg x, renderReg y]
  | .subn x y => [['S', 'U', 'B', 'N'], renderReg x, renderReg y]
  | .shl x y => [['S', 'H', 'L'], renderReg x, renderReg y]
  | .sneVV x y => [['S', 'N', 'E'], renderReg x, renderReg y]
  | .ldI nnn => [['L', 'D'], ['I'], renderAddr nnn]
  | .jpV0 nnn => [['J', 'P'], ['V', '0'], renderAddr nnn]
  | .rnd x nn => [['R', 'N', 'D'], renderReg x, renderByte nn]
  | .drw x y n => [['D', 'R', 'W'], renderReg x, renderReg y, renderNibble n]
  | .skp x => [['S', 'K', 'P'], renderReg x]
  | .sknp x => [['S', 'K', 'N', 'P'], renderReg x]
  | .ldVDT x => [['L', 'D'], renderReg x, ['D', 'T']]
  | .ldVK x => [['L', 'D'], renderReg x, ['K']]
  | .ldDTV x => [['L', 'D'], ['D', 'T'], renderReg x]
  | .ldSTV x => [['L', 'D'], ['S', 'T'], renderReg x]
  | .addI x => [['A', 'D', 'D'], ['I'], renderReg x]
  | .ldF x => [['L', 'D'], ['F'], renderReg x]
  | .ldB x => [['L', 'D'], ['B'], renderReg x]
  | .ldMemV x => [['L', 'D'], ['[', 'I', ']'], renderReg x]
  | .ldVMem x => [['L', 'D'], renderReg x, ['[', 'I', ']']]

/-- Operands joined by a comma and a space. -/
def joinOperands : List Text → Text
  | [] => []
  | [t] => t
  | t :: rest => t ++ [',', ' '] ++ joinOperands rest

/-- Tokens as canonical text: the mnemonic, one space, the operands. -/
def joinTokens : List Text → Text
  | [] => []
  | [m] => m
  | m :: operands => m ++ [' '] ++ joinOperands operands

/-- The canonical text of a word, or the `UnsupportedOpcode` result (R96, R97, D19). -/
def disassemble (w : Word) : Except Reject Text :=
  match decode w with
  | .ok i => .ok (joinTokens (renderTokens i))
  | .error r => .error r

/-- The texts of a byte buffer, two bytes a word, big-endian. A last odd byte is no word: its result is an error
(DESIGN CHOICE, log entry 15; safe). -/
def disassembleBytes : List Byte → List (Except Reject Text)
  | [] => []
  | [_] => [.error .truncated]
  | hi :: lo :: rest => disassemble (wordOfBytes hi lo) :: disassembleBytes rest

/-! ## The canonical form of a line (R98) -/

/-- An operand with the leading zeros of its number stripped; other operands as they are. -/
def canonicalOperand (t : Text) : Text :=
  match t with
  | '#' :: digits => '#' :: stripZeros digits
  | _ => if t.all fun c => (hexDigit c).isSome then stripZeros t else t

/-- The line in upper case, with one space after the mnemonic, its operands joined by a comma and a space, and no leading
zeros. -/
def canonicalize (line : Text) : Text :=
  match lineTokens line with
  | [] => []
  | m :: operands => joinTokens (m :: operands.map canonicalOperand)

end Sys2Proof
end

