-- ==== Sys2Proof/Machine/Boot.lean ====
section
/-!
DEFINITION. Reset with any parameters, and loading images before the first tick (spec/10_state.md R45, R46;
spec/20_memory.md R67; spec/70_reset_and_hazards.md R215 to R219).
-/

namespace Sys2Proof.Machine

/-- The default parameters (R5): policy `fault`, RESET_ZERO true, the default FONT_ROM. -/
def defaultConfig : Config where
  stackUnderflowPolicy := .fault
  resetZero := true
  fontRom := Vector.ofFn fun k : Fin 512 => Memory.background k

/-- The draws of a reset under RESET_ZERO = false (R46, R219): one unspecified value per item. -/
structure ResetDraws where
  v : Vector Byte 16
  i : Word
  dt : Byte
  st : Byte
  fb : Display
  mem : Vector Byte 4096
  deriving DecidableEq, Repr

/-- ROM_MAX (R5, R67). -/
def romMax : Nat := 512

/-- PROG_MAX (R5, R67). -/
def progMax : Nat := 3584

/-- A memory byte no image covers (R46). -/
def unloadedByte (c : Config) (d : ResetDraws) (a : Nat) : Byte :=
  if c.resetZero then 0#8 else d.mem[a]?.getD 0#8

/-- The byte at `a` before the first tick (R46, R67): below 0x200 the ROM image if one is supplied, else FONT_ROM; from
0x200 the program image; unloaded bytes elsewhere. A ROM shorter than 512 bytes replaces FONT_ROM wholesale and leaves the
rest of its region unloaded (DEDUCED, log entry 13; unsafe for a claim about those bytes). -/
def bootByte (c : Config) (d : ResetDraws) (rom : Option (List Byte)) (prog : List Byte) (a : Nat) : Byte :=
  if a < 0x200 then
    match rom with
    | none => c.fontRom[a]?.getD 0#8
    | some image => image[a]?.getD (unloadedByte c d a)
  else prog[a - 0x200]?.getD (unloadedByte c d a)

/-- The canonical memory that holds the given byte at every address. -/
def Memory.ofBytes (f : Nat → Byte) : Memory :=
  (List.range memSize).filterMap fun a => if f a = Memory.background a then none else some (a, f a)

/-- A new engine with its images loaded, before the first tick (R215, R218). `none`: an image too large is refused, never
truncated (R67, D22). Memory gets contents from outside here and nowhere else (R45). -/
def State.boot (c : Config) (d : ResetDraws) (rom : Option (List Byte)) (prog : List Byte) : Option State :=
  if romMax < (rom.getD []).length ∨ progMax < prog.length then none
  else some {
    v := if c.resetZero then Vector.replicate 16 0#8 else d.v
    i := if c.resetZero then 0#16 else d.i
    pc := 0x200#16
    dt := if c.resetZero then 0#8 else d.dt
    st := if c.resetZero then 0#8 else d.st
    stack := []
    mem := Memory.ofBytes (bootByte c d rom prog)
    fb := if c.resetZero then fbBlank else d.fb
    status := .running
    keyAnswers := []
    draws := 0
    underflowPolicy := c.stackUnderflowPolicy }

end Sys2Proof.Machine
end

