-- ==== Sys2Proof/Safety.lean ====
section
/-!
DEFINITION. The terms claims are stated in: the parts of a state and what leaves them alone, which instruction reads and
writes what (spec/10_state.md R21, R22, R25), which instruction raises what (spec/60_exceptions.md R192), and the
invariant every step keeps.
-/

namespace Sys2Proof.Machine

/-! ## Frames -/

/-- The parts of a state other than the general registers and the parameter. -/
inductive Part where
  | pc
  | index
  | delay
  | sound
  | stack
  | memory
  | display
  | status
  | answers
  | draws
  deriving DecidableEq, Repr

/-- The two states hold the same in that part; for memory, the same byte at every address. -/
def Part.same : Part → State → State → Prop
  | .pc, s, t => t.pc = s.pc
  | .index, s, t => t.i = s.i
  | .delay, s, t => t.dt = s.dt
  | .sound, s, t => t.st = s.st
  | .stack, s, t => t.stack = s.stack
  | .memory, s, t => ∀ a, t.mem.read a = s.mem.read a
  | .display, s, t => t.fb = s.fb
  | .status, s, t => t.status = s.status
  | .answers, s, t => t.keyAnswers = s.keyAnswers
  | .draws, s, t => t.draws = s.draws

/-- Every part outside the list, and the parameter, is unchanged. -/
def KeepsBut (changed : List Part) (s t : State) : Prop :=
  (∀ p, p ∉ changed → p.same s t) ∧ t.underflowPolicy = s.underflowPolicy

/-- Every general register outside the list is unchanged. -/
def KeepsRegsBut (changed : List Reg) (s t : State) : Prop :=
  ∀ r, r ∉ changed → t.reg r = s.reg r

/-- Every byte of memory outside `count` bytes from address `a` on is unchanged. -/
def KeepsBytesOutside (a count : Nat) (s t : State) : Prop :=
  ∀ k, (k < a ∨ a + count ≤ k) → t.mem.read k = s.mem.read k

/-- Every word that has the pattern under the mask (a row of spec/opcode_table.json) decodes to that instruction. -/
def DecodesAs (mask pattern : Word) (instr : Word → Instr) : Prop :=
  ∀ w, w &&& mask = pattern → decode w = .ok (instr w)

/-- The unsupported rows of R75, as R79 lists them. -/
def unsupportedRow (w : Word) : Bool :=
  (op w == 0x5#4 && fieldN w != 0x0#4)
    || (op w == 0x8#4 && [0x8#4, 0x9#4, 0xA#4, 0xB#4, 0xC#4, 0xD#4, 0xF#4].contains (fieldN w))
    || (op w == 0x9#4 && fieldN w != 0x0#4)
    || (op w == 0xE#4 && !([0x9E#8, 0xA1#8].contains (fieldNN w)))
    || (op w == 0xF#4
      && !([0x07#8, 0x0A#8, 0x15#8, 0x18#8, 0x1E#8, 0x29#8, 0x33#8, 0x55#8, 0x65#8].contains (fieldNN w)))

/-- The instruction raises exactly that error: the record names the instruction, whose address is PC - 2 in the execute
step (R193), and nothing else changes (R196) but, for a cancelled key wait, the answer taken. -/
def RaisesExactly (code : ErrorCode) (i : Instr) (s : State) (taken : List Part) : Prop :=
  ∃ t, exec i s = .next t
    ∧ t.status = .error { code := code, addr := s.pc - 2#16, word := some (encode i) }
    ∧ KeepsRegsBut [] s t ∧ KeepsBut (.status :: taken) s t

/-! ## What each instruction reads and writes -/

/-- The "reads" column of R22. -/
def readsReg : Instr → Reg → Bool
  | .seVB x _, r => r == x
  | .sneVB x _, r => r == x
  | .seVV x y, r => r == x || r == y
  | .sneVV x y, r => r == x || r == y
  | .addVB x _, r => r == x
  | .ldVV _ y, r => r == y
  | .orVV x y, r => r == x || r == y
  | .andVV x y, r => r == x || r == y
  | .xorVV x y, r => r == x || r == y
  | .addVV x y, r => r == x || r == y
  | .sub x y, r => r == x || r == y
  | .subn x y, r => r == x || r == y
  | .shr x _, r => r == x
  | .shl x _, r => r == x
  | .jpV0 _, r => r == 0x0#4
  | .drw x y _, r => r == x || r == y
  | .skp x, r => r == x
  | .sknp x, r => r == x
  | .ldDTV x, r => r == x
  | .ldSTV x, r => r == x
  | .addI x, r => r == x
  | .ldF x, r => r == x
  | .ldB x, r => r == x
  | .ldMemV x, r => decide (r.toNat ≤ x.toNat)
  | .cls, _ => false
  | .ret, _ => false
  | .sys _, _ => false
  | .jp _, _ => false
  | .call _, _ => false
  | .ldVB _ _, _ => false
  | .ldI _, _ => false
  | .rnd _ _, _ => false
  | .ldVDT _, _ => false
  | .ldVK _, _ => false
  | .ldVMem _, _ => false

/-- The "writes" column of R22. -/
def writesReg : Instr → Reg → Bool
  | .ldVB x _, r => r == x
  | .addVB x _, r => r == x
  | .ldVV x _, r => r == x
  | .orVV x _, r => r == x
  | .andVV x _, r => r == x
  | .xorVV x _, r => r == x
  | .addVV x _, r => r == x || r == Reg.vf
  | .sub x _, r => r == x || r == Reg.vf
  | .subn x _, r => r == x || r == Reg.vf
  | .shr x _, r => r == x || r == Reg.vf
  | .shl x _, r => r == x || r == Reg.vf
  | .rnd x _, r => r == x
  | .drw _ _ _, r => r == Reg.vf
  | .ldVDT x, r => r == x
  | .ldVK x, r => r == x
  | .ldVMem x, r => decide (r.toNat ≤ x.toNat)
  | .cls, _ => false
  | .ret, _ => false
  | .sys _, _ => false
  | .jp _, _ => false
  | .call _, _ => false
  | .seVB _ _, _ => false
  | .sneVB _ _, _ => false
  | .seVV _ _, _ => false
  | .sneVV _ _, _ => false
  | .ldI _, _ => false
  | .jpV0 _, _ => false
  | .skp _, _ => false
  | .sknp _, _ => false
  | .ldDTV _, _ => false
  | .ldSTV _, _ => false
  | .addI _, _ => false
  | .ldF _, _ => false
  | .ldB _, _ => false
  | .ldMemV _, _ => false

/-- The other parts an instruction may change in its execute step when it raises nothing and its key request, if it makes
one, is answered: PC (R25), I (R28), the timers (R29), the stack (R32), memory (R57), the display (R37), and the model's
own records of the two input ports (R42, R43). -/
def writesParts : Instr → List Part
  | .cls => [.display]
  | .ret => [.pc, .stack]
  | .sys _ => []
  | .jp _ => [.pc]
  | .call _ => [.pc, .stack]
  | .seVB _ _ => [.pc]
  | .sneVB _ _ => [.pc]
  | .seVV _ _ => [.pc]
  | .sneVV _ _ => [.pc]
  | .jpV0 _ => [.pc]
  | .ldVB _ _ => []
  | .addVB _ _ => []
  | .ldVV _ _ => []
  | .orVV _ _ => []
  | .andVV _ _ => []
  | .xorVV _ _ => []
  | .addVV _ _ => []
  | .sub _ _ => []
  | .shr _ _ => []
  | .subn _ _ => []
  | .shl _ _ => []
  | .ldI _ => [.index]
  | .rnd _ _ => [.draws]
  | .drw _ _ _ => [.display]
  | .skp _ => [.pc, .answers]
  | .sknp _ => [.pc, .answers]
  | .ldVK _ => [.answers]
  | .ldVDT _ => []
  | .ldDTV _ => [.delay]
  | .ldSTV _ => [.sound]
  | .addI _ => [.index]
  | .ldF _ => [.index]
  | .ldB _ => [.memory]
  | .ldMemV _ => [.memory]
  | .ldVMem _ => []

/-- The errors an instruction can raise (R192). -/
def canRaise : Instr → ErrorCode → Bool
  | .ret, c => c == .stackUnderflow
  | .call _, c => c == .stackOverflow
  | .drw _ _ n, c => c == .addressOutOfRange && n != 0x0#4
  | .ldB _, c => c == .addressOutOfRange
  | .ldMemV _, c => c == .addressOutOfRange
  | .ldVMem _, c => c == .addressOutOfRange
  | .skp _, c => c == .keyWaitCancelled
  | .sknp _, c => c == .keyWaitCancelled
  | .ldVK _, c => c == .keyWaitCancelled
  | .cls, _ => false
  | .sys _, _ => false
  | .jp _, _ => false
  | .seVB _ _, _ => false
  | .sneVB _ _, _ => false
  | .seVV _ _, _ => false
  | .sneVV _ _, _ => false
  | .jpV0 _, _ => false
  | .ldVB _ _, _ => false
  | .addVB _ _, _ => false
  | .ldVV _ _, _ => false
  | .orVV _ _, _ => false
  | .andVV _ _, _ => false
  | .xorVV _ _, _ => false
  | .addVV _ _, _ => false
  | .sub _ _, _ => false
  | .shr _ _, _ => false
  | .subn _ _, _ => false
  | .shl _ _, _ => false
  | .ldI _, _ => false
  | .rnd _ _, _ => false
  | .ldVDT _, _ => false
  | .ldDTV _, _ => false
  | .ldSTV _, _ => false
  | .addI _, _ => false
  | .ldF _, _ => false

/-! ## Statuses and the invariant -/

/-- Whether no step is left (R35, R206). -/
def Status.terminal : Status → Bool
  | .running => false
  | .awaitKey _ _ => false
  | .halted _ => true
  | .error _ => true

/-- The status agrees with the rest of the state. Awaiting: the word before PC is the waiting instruction (R82, R182).
Halted: PC is out of range and the record holds it and no word (R81, R193). Error: PC is past the instruction the record
names, whose word is still in memory (R193, R196). -/
def StatusCoherent (s : State) : Prop :=
  match s.status with
  | .running => True
  | .awaitKey kind x =>
    2 ≤ s.pc.toNat ∧ s.pc.toNat ≤ 0x1000 ∧ s.mem.readWord (s.pc.toNat - 2) = encode (kind.instr x)
  | .halted r =>
    0xFFE < s.pc.toNat ∧ r = { code := .programCounterOutOfRange, addr := s.pc, word := none }
  | .error r =>
    2 ≤ s.pc.toNat ∧ s.pc.toNat ≤ 0x1000 ∧ r.code ≠ .programCounterOutOfRange
      ∧ r.addr.toNat = s.pc.toNat - 2 ∧ r.word = some (s.mem.readWord r.addr.toNat)

/-- The invariant: memory is canonical, the stack holds at most 16 return addresses (R32), PC and they stay in the range
R25 gives, and the status agrees with the rest of the state. -/
structure State.Inv (s : State) : Prop where
  memory : s.mem.wf = true
  depth : s.stack.length ≤ 16
  returns : ∀ w ∈ s.stack, w.toNat ≤ 0x1000
  counter : s.pc.toNat ≤ 0x10FE
  status : StatusCoherent s

/-! ## Sprites as pixels -/

/-- Whether a sprite of `n` rows at address `a`, drawn at the coordinates `vx`, `vy`, covers pixel (px, py) with a set bit:
the pixel lies `dx` columns right of `vx mod 64` and `dy` rows below `vy mod 32`, both counted with wrap-around (R169), and
the bit `7 - dx` of row `dy` is set (R37, R166). -/
def spriteCovers (m : Memory) (a : Nat) (vx vy : Byte) (n : Nat) (px : Fin 64) (py : Fin 32) : Bool :=
  let dx := (px.val + 64 - vx.toNat % 64) % 64
  let dy := (py.val + 32 - vy.toNat % 32) % 32
  decide (dx < 8) && decide (dy < n) && (m.read (a + dy)).getLsbD (7 - dx)

end Sys2Proof.Machine
end

