-- ==== Sys2Proof/Certificates/Slice0/Obligations.lean ====
section
/-!
DEFINITION. The statements for the provers. Each is named in OBLIGATIONS.json. In `exec`, PC holds the address of the
instruction plus 2 (spec/30_encoding.md R82), so "PC unchanged" there means that the next instruction in memory is next.
`KeepsRegsBut`, `KeepsBut` and `KeepsBytesOutside` are the frames.
-/

open Sys2Proof Sys2Proof.Machine

/-! ## Encoding -/

/-- R87: the encoder is the shift-and-or of the four nibbles, decoding an encoded well-formed instruction gives it back,
and encoding a decoded word gives the word back. -/
def Obligations.DecodeAndEncodeAgree : Prop :=
  (∀ (o x y n : Nibble), packXYN o x y n
      = (o.zeroExtend 16 <<< 12) ||| (x.zeroExtend 16 <<< 8) ||| (y.zeroExtend 16 <<< 4) ||| n.zeroExtend 16)
  ∧ (∀ i : Instr, i.wf = true → decode (encode i) = .ok i)
  ∧ (∀ (w : Word) (i : Instr), decode w = .ok i → encode i = w ∧ i.wf = true)

/-- R70: the six fields are the shifts and masks the rule gives. -/
def Obligations.FieldsAreShiftsAndMasks : Prop :=
  ∀ w : Word,
    (op w).zeroExtend 16 = (w >>> 12) &&& 0xF#16
    ∧ (fieldX w).zeroExtend 16 = (w >>> 8) &&& 0xF#16
    ∧ (fieldY w).zeroExtend 16 = (w >>> 4) &&& 0xF#16
    ∧ (fieldN w).zeroExtend 16 = w &&& 0xF#16
    ∧ (fieldNN w).zeroExtend 16 = w &&& 0xFF#16
    ∧ (fieldNNN w).zeroExtend 16 = w &&& 0xFFF#16

/-- R71: the fields rebuild the word, and the wide fields are made of the nibbles. -/
def Obligations.FieldsRebuildTheWord : Prop :=
  ∀ w : Word,
    w = ((op w).zeroExtend 16 <<< 12) ||| ((fieldX w).zeroExtend 16 <<< 8)
          ||| ((fieldY w).zeroExtend 16 <<< 4) ||| (fieldN w).zeroExtend 16
    ∧ fieldNN w = ((fieldY w).zeroExtend 8 <<< 4) ||| (fieldN w).zeroExtend 8
    ∧ fieldNNN w = ((fieldX w).zeroExtend 12 <<< 8) ||| (fieldNN w).zeroExtend 12

/-- R79, R83 (which the spec derives from R75): a word is rejected exactly in the unsupported rows, and every other word is
an instruction. -/
def Obligations.UnsupportedWordsAreExact : Prop :=
  ∀ w : Word,
    (decode w = .error .unsupportedOpcode ↔ unsupportedRow w = true)
    ∧ ((∃ i, decode w = .ok i) ↔ unsupportedRow w = false)

/-- A few words of spec/95_test_vectors.md 2.1 decode to the instructions named there. -/
def Obligations.VectorWordsDecode : Prop :=
  decode 0xD23F#16 = .ok (.drw 0x2#4 0x3#4 0xF#4)
  ∧ decode 0x0000#16 = .ok (.sys 0x000#12)
  ∧ decode 0x01E0#16 = .ok (.sys 0x1E0#12)
  ∧ decode 0x5120#16 = .ok (.seVV 0x1#4 0x2#4)
  ∧ decode 0x812E#16 = .ok (.shl 0x1#4 0x2#4)
  ∧ decode 0xE19E#16 = .ok (.skp 0x1#4)
  ∧ decode 0xF165#16 = .ok (.ldVMem 0x1#4)
  ∧ decode 0xB123#16 = .ok (.jpV0 0x123#12)

/-! ## The tick -/

/-- R80, R82: a step of a running machine whose fetched bytes decode to `i` is `exec i` after the timers have been counted
down, floored at 0, and PC has moved past the instruction. -/
def Obligations.StepRunsTheDecodedInstruction : Prop :=
  ∀ (s : State) (i : Instr), s.status = .running → s.pc.toNat ≤ 0xFFE →
    decode (wordOfBytes (s.mem.read s.pc.toNat) (s.mem.read (s.pc.toNat + 1))) = .ok i →
    step s = exec i { s with
      dt := BitVec.ofNat 8 (s.dt.toNat - 1)
      st := BitVec.ofNat 8 (s.st.toNat - 1)
      pc := BitVec.ofNat 16 (s.pc.toNat + 2) }

/-- R81 (its bound 0x0FFE and its record are the spec's own decisions D7 and D12): a tick with PC past 0x0FFE counts the
timers down, reports halted and changes nothing else. -/
def Obligations.TickPastTheTopHalts : Prop :=
  ∀ s : State, s.status = .running → 0xFFE < s.pc.toNat →
    ∃ t, step s = .next t
      ∧ t.status = .halted { code := .programCounterOutOfRange, addr := s.pc, word := none }
      ∧ t.dt.toNat = s.dt.toNat - 1 ∧ t.st.toNat = s.st.toNat - 1
      ∧ KeepsRegsBut [] s t ∧ KeepsBut [.delay, .sound, .status] s t

/-- R84, R196 (the record is the spec's own decision D12): a word that decodes to no instruction raises UnsupportedOpcode
with its address and itself; the timers and PC have moved and nothing else has changed. -/
def Obligations.UnsupportedWordRaises : Prop :=
  ∀ s : State, s.status = .running → s.pc.toNat ≤ 0xFFE → unsupportedRow (fetchWord s) = true →
    ∃ t, step s = .next t
      ∧ t.status = .error { code := .unsupportedOpcode, addr := s.pc, word := some (fetchWord s) }
      ∧ t.pc = s.pc + 2#16 ∧ t.dt.toNat = s.dt.toNat - 1 ∧ t.st.toNat = s.st.toNat - 1
      ∧ KeepsRegsBut [] s t ∧ KeepsBut [.pc, .delay, .sound, .status] s t

/-- R44, R206 (the spec's own decision D16) and the whole machine: a terminal status has no step, and every other state has a next
state, whatever instruction it meets. That a waiting machine with no answer steps to itself is the model's choice (log
entry 6). -/
def Obligations.EveryLiveStateSteps : Prop :=
  (∀ s : State, s.status.terminal = true → step s = .refused .terminalStatus)
  ∧ (∀ s : State, s.status.terminal = false → ∃ t, step s = .next t)

/-- Every step keeps the invariant `State.Inv`: canonical memory, at most 16 return addresses (R32), PC and return addresses
in the range R25 gives, and a status that agrees with PC and memory (R182, R193, R196). -/
def Obligations.StepKeepsTheInvariant : Prop :=
  ∀ s t : State, s.Inv → step s = .next t → t.Inv

/-- The state after reset meets the invariant. -/
def Obligations.ResetMeetsTheInvariant : Prop :=
  State.reset.Inv

/-- R196 (the spec's own decision D12): when a tick ends in an error, the effects of steps 1 and 3 stay and nothing of the
instruction stays; the record holds the instruction's address and word (R193). A key wait that ends in an error changes the
status alone. The answer that a cancelled wait takes is the model's own record (log entry 5). -/
def Obligations.ErrorsArePrecise : Prop :=
  (∀ (s t : State) (r : ErrorRecord), s.status = .running → step s = .next t → t.status = .error r →
    s.pc.toNat ≤ 0xFFE ∧ r.addr = s.pc ∧ r.word = some (fetchWord s)
    ∧ t.pc = s.pc + 2#16 ∧ t.dt.toNat = s.dt.toNat - 1 ∧ t.st.toNat = s.st.toNat - 1
    ∧ KeepsRegsBut [] s t ∧ KeepsBut [.pc, .delay, .sound, .status, .answers] s t)
  ∧ (∀ (s t : State) (kind : KeyOp) (x : Reg) (r : ErrorRecord), s.status = .awaitKey kind x →
    step s = .next t → t.status = .error r →
    r.code = .keyWaitCancelled ∧ KeepsRegsBut [] s t ∧ KeepsBut [.status, .answers] s t)

/-- R192 (which the spec derives): an instruction raises only the errors listed for it, and the record names the
instruction. -/
def Obligations.OnlyListedErrorsAreRaised : Prop :=
  ∀ (i : Instr) (s t : State) (r : ErrorRecord), s.status = .running → exec i s = .next t →
    t.status = .error r →
    canRaise i r.code = true ∧ r.addr = s.pc - 2#16 ∧ r.word = some (encode i)

/-- R86: every tick that starts counts DT and ST down by one, floored at 0, a halted tick too, unless its instruction
writes that timer. -/
def Obligations.EveryTickCountsTheTimers : Prop :=
  ∀ s t : State, s.status = .running → step s = .next t →
    ((0xFFE < s.pc.toNat ∨ ∀ x, decode (fetchWord s) ≠ .ok (.ldDTV x)) → t.dt.toNat = s.dt.toNat - 1)
    ∧ ((0xFFE < s.pc.toNat ∨ ∀ x, decode (fetchWord s) ≠ .ok (.ldSTV x)) → t.st.toNat = s.st.toNat - 1)

/-- R182 (the spec's own decision D15; the representation of the wait is the model's, log entries 5 and 6): while no answer has come the
waiting state stays as it is, and when one comes the timers are as the tick's first step left them. -/
def Obligations.KeyWaitHoldsTheState : Prop :=
  ∀ (s : State) (kind : KeyOp) (x : Reg), s.status = .awaitKey kind x →
    (s.keyAnswers = [] → step s = .next s)
    ∧ (∀ t, step s = .next t → t.dt = s.dt ∧ t.st = s.st)

/-- A tick that waits and is answered ends as the same tick with the answer already there: splitting the wait off (log entry
6, the model's choice) changes no outcome of the atomic tick of R60. -/
def Obligations.WaitedTickEqualsAtomicTick : Prop :=
  ∀ (kind : KeyOp) (x : Reg) (s t : State) (a : KeyAnswer), s.status = .running → s.keyAnswers = [] →
    exec (kind.instr x) s = .next t →
    step (t.answerKey a) = exec (kind.instr x) (s.answerKey a)

/-! ## Who reads and writes what -/

/-- R22, column "writes" (which the spec derives), and R21: an instruction changes no general register but those listed. -/
def Obligations.OnlyListedRegistersAreWritten : Prop :=
  ∀ (i : Instr) (s t : State) (r : Reg), exec i s = .next t → writesReg i r = false → t.reg r = s.reg r

/-- R22, column "reads" (which the spec derives): changing a register that the instruction does not read changes nothing of
the result but, at most, that register itself. For RND the two runs see the same draw, because their counts of draws are
equal: that is the model's choice (log entry 4, unsafe for a comparison of runs), not a rule of the spec. -/
def Obligations.UnlistedRegistersAreNotRead : Prop :=
  ∀ (i : Instr) (s t : State) (r : Reg) (b : Byte), readsReg i r = false → exec i s = .next t →
    ∃ t', exec i (s.setReg r b) = .next t' ∧ t'.setReg r 0#8 = t.setReg r 0#8

/-- R25, R28, R29, R32, R37, R57: an instruction changes no other part of the state but those listed, its status and the
answer it takes; the parameter never changes. -/
def Obligations.OnlyListedPartsAreWritten : Prop :=
  ∀ (i : Instr) (s t : State), exec i s = .next t → KeepsBut (.status :: .answers :: writesParts i) s t

/-- R25 (which the spec derives): the only writes to PC in an execute step. -/
def Obligations.OnlyListedPcWrites : Prop :=
  ∀ (i : Instr) (s t : State), exec i s = .next t →
    t.pc = s.pc
    ∨ (((∃ x nn, i = .seVB x nn ∨ i = .sneVB x nn) ∨ (∃ x y, i = .seVV x y ∨ i = .sneVV x y)
        ∨ (∃ x, i = .skp x ∨ i = .sknp x)) ∧ t.pc = s.pc + 2#16)
    ∨ (∃ nnn, (i = .jp nnn ∨ i = .call nnn) ∧ t.pc.toNat = nnn.toNat)
    ∨ (∃ nnn, i = .jpV0 nnn ∧ t.pc.toNat = nnn.toNat + (s.reg 0x0#4).toNat)
    ∨ (i = .ret ∧ ∃ rest, s.stack = t.pc :: rest)

/-! ## Memory and loading -/

/-- R57, R60: a byte read after a write is the byte written at that address and the old one at every other. -/
def Obligations.MemoryReadsTheLatestWrite : Prop :=
  ∀ (m : Memory) (a k : Nat) (b : Byte), a ≤ 0xFFF →
    (m.write a b).read a = b ∧ (k ≠ a → (m.write a b).read k = m.read k)

/-- Two canonical memories that read the same at every address of R50 are equal data. -/
def Obligations.CanonicalMemoriesAreEqual : Prop :=
  ∀ m m' : Memory, m.wf = true → m'.wf = true → (∀ a, a ≤ 0xFFF → m.read a = m'.read a) → m = m'

/-- R64, R221: after LD [I], Vx has stored over the two bytes at PC, the next fetch reads the stored registers. -/
def Obligations.StoredCodeIsFetched : Prop :=
  ∀ (x r : Reg) (s : State), r.toNat + 1 ≤ x.toNat → s.i.toNat + x.toNat ≤ 0xFFF →
    s.pc.toNat = dataAddr s r.toNat →
    ∃ t, exec (.ldMemV x) s = .next t ∧ fetchWord t = wordOfBytes (s.reg r) (s.reg (r + 1#4))

/-- R46, R67, R218 (under the spec's own decisions D9, D10 and D22): images that fit are loaded verbatim, FONT_ROM stands in
for a missing ROM, RESET_ZERO zeroes the rest, PC, stack and status are the reset ones; an image that does not fit is refused.
With RESET_ZERO false the registers, the timers, the display and the unloaded bytes are the draws given. -/
def Obligations.BootLoadsImages : Prop :=
  (∀ (c : Config) (d : ResetDraws) (rom : Option (List Byte)) (prog : List Byte),
    (∀ image, rom = some image → image.length ≤ 512) → prog.length ≤ 3584 →
    ∃ s, State.boot c d rom prog = some s
      ∧ s.pc = 0x200#16 ∧ s.stack = [] ∧ s.status = .running ∧ s.mem.wf = true
      ∧ (∀ (k : Nat) (h : k < prog.length), s.mem.read (0x200 + k) = prog[k])
      ∧ (∀ image, rom = some image → ∀ (k : Nat) (h : k < image.length), s.mem.read k = image[k])
      ∧ (rom = none → ∀ (k : Nat) (h : k < 512), s.mem.read k = c.fontRom[k])
      ∧ (∀ (k : Nat) (h : k < 4096), 0x200 + prog.length ≤ k →
          s.mem.read k = if c.resetZero then 0#8 else d.mem[k])
      ∧ (∀ r : Reg, s.reg r = if c.resetZero then 0#8 else d.v[r.toNat])
      ∧ s.i = (if c.resetZero then 0#16 else d.i)
      ∧ s.dt = (if c.resetZero then 0#8 else d.dt) ∧ s.st = (if c.resetZero then 0#8 else d.st)
      ∧ (∀ row col, fbRead s.fb row col = if c.resetZero then 0#8 else fbRead d.fb row col))
  ∧ (∀ (c : Config) (d : ResetDraws) (rom : Option (List Byte)) (prog : List Byte),
    ((∃ image, rom = some image ∧ 512 < image.length) ∨ 3584 < prog.length) →
    State.boot c d rom prog = none)

/-- `State.reset` is the reset with the default parameters of R5 and no image, whatever the draws. -/
def Obligations.DefaultBootIsReset : Prop :=
  ∀ d : ResetDraws, State.boot defaultConfig d none [] = some State.reset

/-- R216: PC is 0x200 after reset, and the first tick fetches the word at 0x200 and 0x201, whatever is loaded. -/
def Obligations.FirstFetchIsAtTheResetVector : Prop :=
  State.reset.pc = 0x200#16
  ∧ ∀ m : Memory, fetchWord (State.reset.setMem m) = wordOfBytes (m.read 0x200) (m.read 0x201)

/-! ## Control flow -/

/-- R111: SYS is every word of family 0 but two, and has no effect. -/
def Obligations.SysHasNoEffect : Prop :=
  (∀ w : Word, op w = 0x0#4 → w ≠ 0x00E0#16 → w ≠ 0x00EE#16 → decode w = .ok (.sys (fieldNNN w)))
  ∧ ∀ (nnn : Addr) (s : State), exec (.sys nnn) s = .next s

/-- R112, R118: JP sets PC to nnn; JP V0 sets it to nnn plus V0, exactly. -/
def Obligations.JumpsSetPc : Prop :=
  DecodesAs 0xF000#16 0x1000#16 (fun w => .jp (fieldNNN w))
  ∧ DecodesAs 0xF000#16 0xB000#16 (fun w => .jpV0 (fieldNNN w))
  ∧ (∀ (nnn : Addr) (s : State), ∃ t, exec (.jp nnn) s = .next t
      ∧ t.pc.toNat = nnn.toNat ∧ KeepsRegsBut [] s t ∧ KeepsBut [.pc] s t)
  ∧ (∀ (nnn : Addr) (s : State), ∃ t, exec (.jpV0 nnn) s = .next t
      ∧ t.pc.toNat = nnn.toNat + (s.reg 0x0#4).toNat ∧ KeepsRegsBut [] s t ∧ KeepsBut [.pc] s t)

/-- R113: CALL pushes PC, the return address, and jumps; with 16 entries it raises StackOverflow and changes nothing else
(R196). -/
def Obligations.CallPushesTheReturnAddress : Prop :=
  DecodesAs 0xF000#16 0x2000#16 (fun w => .call (fieldNNN w))
  ∧ (∀ (nnn : Addr) (s : State), s.stack.length < 16 → ∃ t, exec (.call nnn) s = .next t
      ∧ t.pc.toNat = nnn.toNat ∧ t.stack = s.pc :: s.stack
      ∧ KeepsRegsBut [] s t ∧ KeepsBut [.pc, .stack] s t)
  ∧ (∀ (nnn : Addr) (s : State), 16 ≤ s.stack.length →
      RaisesExactly .stackOverflow (.call nnn) s [])

/-- R110: RET on a stack that is not empty pops PC. -/
def Obligations.RetPopsTheReturnAddress : Prop :=
  decode 0x00EE#16 = .ok .ret
  ∧ ∀ (s : State) (w : Word) (rest : List Word), s.stack = w :: rest → ∃ t, exec .ret s = .next t
      ∧ t.pc = w ∧ t.stack = rest ∧ KeepsRegsBut [] s t ∧ KeepsBut [.pc, .stack] s t

/-- R34, R110, decision D5: RET on an empty stack raises StackUnderflow under the policy `fault` and changes nothing under
`noop`. -/
def Obligations.RetOnTheEmptyStack : Prop :=
  (∀ s : State, s.stack = [] → s.underflowPolicy = .fault → RaisesExactly .stackUnderflow .ret s [])
  ∧ (∀ s : State, s.stack = [] → s.underflowPolicy = .noop → exec .ret s = .next s)

/-- R114, R115: SE and SNE with an immediate move PC on by 2 exactly when the register is equal, or different, whatever
word they skip. -/
def Obligations.SkipsOnAnImmediate : Prop :=
  DecodesAs 0xF000#16 0x3000#16 (fun w => .seVB (fieldX w) (fieldNN w))
  ∧ DecodesAs 0xF000#16 0x4000#16 (fun w => .sneVB (fieldX w) (fieldNN w))
  ∧ (∀ (x : Reg) (nn : Byte) (s : State), ∃ t, exec (.seVB x nn) s = .next t
      ∧ t.pc = (if s.reg x = nn then s.pc + 2#16 else s.pc) ∧ KeepsRegsBut [] s t ∧ KeepsBut [.pc] s t)
  ∧ (∀ (x : Reg) (nn : Byte) (s : State), ∃ t, exec (.sneVB x nn) s = .next t
      ∧ t.pc = (if s.reg x ≠ nn then s.pc + 2#16 else s.pc) ∧ KeepsRegsBut [] s t ∧ KeepsBut [.pc] s t)

/-- R116, R117: SE and SNE of two registers, and the words 5xyN and 9xyN with N not 0, which decode to no instruction (R77, the
spec's own decision D4). -/
def Obligations.SkipsOnTwoRegisters : Prop :=
  DecodesAs 0xF00F#16 0x5000#16 (fun w => .seVV (fieldX w) (fieldY w))
  ∧ DecodesAs 0xF00F#16 0x9000#16 (fun w => .sneVV (fieldX w) (fieldY w))
  ∧ (∀ w : Word, (op w = 0x5#4 ∨ op w = 0x9#4) → fieldN w ≠ 0x0#4 → decode w = .error .unsupportedOpcode)
  ∧ (∀ (x y : Reg) (s : State), ∃ t, exec (.seVV x y) s = .next t
      ∧ t.pc = (if s.reg x = s.reg y then s.pc + 2#16 else s.pc) ∧ KeepsRegsBut [] s t ∧ KeepsBut [.pc] s t)
  ∧ (∀ (x y : Reg) (s : State), ∃ t, exec (.sneVV x y) s = .next t
      ∧ t.pc = (if s.reg x ≠ s.reg y then s.pc + 2#16 else s.pc) ∧ KeepsRegsBut [] s t ∧ KeepsBut [.pc] s t)

/-! ## ALU -/

/-- R130, R131, R132: the loads, and the immediate add modulo 256, write Vx and no flag. -/
def Obligations.LoadsAndImmediateAdd : Prop :=
  DecodesAs 0xF000#16 0x6000#16 (fun w => .ldVB (fieldX w) (fieldNN w))
  ∧ DecodesAs 0xF000#16 0x7000#16 (fun w => .addVB (fieldX w) (fieldNN w))
  ∧ DecodesAs 0xF00F#16 0x8000#16 (fun w => .ldVV (fieldX w) (fieldY w))
  ∧ (∀ (x : Reg) (nn : Byte) (s : State), ∃ t, exec (.ldVB x nn) s = .next t
      ∧ t.reg x = nn ∧ KeepsRegsBut [x] s t ∧ KeepsBut [] s t)
  ∧ (∀ (x : Reg) (nn : Byte) (s : State), ∃ t, exec (.addVB x nn) s = .next t
      ∧ (t.reg x).toNat = ((s.reg x).toNat + nn.toNat) % 256 ∧ KeepsRegsBut [x] s t ∧ KeepsBut [] s t)
  ∧ (∀ (x y : Reg) (s : State), ∃ t, exec (.ldVV x y) s = .next t
      ∧ t.reg x = s.reg y ∧ KeepsRegsBut [x] s t ∧ KeepsBut [] s t)

/-- R133, R134, R135: OR, AND and XOR, bit by bit, write Vx and no flag. -/
def Obligations.LogicWritesNoFlag : Prop :=
  DecodesAs 0xF00F#16 0x8001#16 (fun w => .orVV (fieldX w) (fieldY w))
  ∧ DecodesAs 0xF00F#16 0x8002#16 (fun w => .andVV (fieldX w) (fieldY w))
  ∧ DecodesAs 0xF00F#16 0x8003#16 (fun w => .xorVV (fieldX w) (fieldY w))
  ∧ (∀ (x y : Reg) (s : State), ∃ t, exec (.orVV x y) s = .next t
      ∧ (∀ k, (t.reg x).getLsbD k = ((s.reg x).getLsbD k || (s.reg y).getLsbD k))
      ∧ KeepsRegsBut [x] s t ∧ KeepsBut [] s t)
  ∧ (∀ (x y : Reg) (s : State), ∃ t, exec (.andVV x y) s = .next t
      ∧ (∀ k, (t.reg x).getLsbD k = ((s.reg x).getLsbD k && (s.reg y).getLsbD k))
      ∧ KeepsRegsBut [x] s t ∧ KeepsBut [] s t)
  ∧ (∀ (x y : Reg) (s : State), ∃ t, exec (.xorVV x y) s = .next t
      ∧ (∀ k, (t.reg x).getLsbD k = ((s.reg x).getLsbD k ^^ (s.reg y).getLsbD k))
      ∧ KeepsRegsBut [x] s t ∧ KeepsBut [] s t)

/-- R136 (VF written, and written last, by the spec's own decisions D1 and D3): the sum modulo 256, then the carry in VF, whatever x
and y are. -/
def Obligations.AddSetsTheCarry : Prop :=
  DecodesAs 0xF00F#16 0x8004#16 (fun w => .addVV (fieldX w) (fieldY w))
  ∧ ∀ (x y : Reg) (s : State), ∃ t, exec (.addVV x y) s = .next t
      ∧ t.reg Reg.vf = (if (s.reg x).toNat + (s.reg y).toNat > 255 then 1#8 else 0#8)
      ∧ (x ≠ Reg.vf → (t.reg x).toNat = ((s.reg x).toNat + (s.reg y).toNat) % 256)
      ∧ KeepsRegsBut [x, Reg.vf] s t ∧ KeepsBut [] s t

/-- R137, R139 (VF last by the spec's own decision D3): SUB and SUBN leave the exact difference modulo 256, then 1 in VF exactly
when the minuend is strictly greater. -/
def Obligations.SubtractionsSetNoBorrow : Prop :=
  DecodesAs 0xF00F#16 0x8005#16 (fun w => .sub (fieldX w) (fieldY w))
  ∧ DecodesAs 0xF00F#16 0x8007#16 (fun w => .subn (fieldX w) (fieldY w))
  ∧ (∀ (x y : Reg) (s : State), ∃ t, exec (.sub x y) s = .next t
      ∧ t.reg Reg.vf = (if (s.reg x).toNat > (s.reg y).toNat then 1#8 else 0#8)
      ∧ (x ≠ Reg.vf → ((t.reg x).toNat : Int) = (((s.reg x).toNat : Int) - (s.reg y).toNat) % 256)
      ∧ KeepsRegsBut [x, Reg.vf] s t ∧ KeepsBut [] s t)
  ∧ (∀ (x y : Reg) (s : State), ∃ t, exec (.subn x y) s = .next t
      ∧ t.reg Reg.vf = (if (s.reg y).toNat > (s.reg x).toNat then 1#8 else 0#8)
      ∧ (x ≠ Reg.vf → ((t.reg x).toNat : Int) = (((s.reg y).toNat : Int) - (s.reg x).toNat) % 256)
      ∧ KeepsRegsBut [x, Reg.vf] s t ∧ KeepsBut [] s t)

/-- R138, R140 (VF last by the spec's own decision D3, bit 7 by D2): SHR halves Vx and leaves its old bit 0 in VF; SHL doubles it
modulo 256 and leaves its old bit 7. The register y is not read (R78). -/
def Obligations.ShiftsSetTheShiftedOutBit : Prop :=
  DecodesAs 0xF00F#16 0x8006#16 (fun w => .shr (fieldX w) (fieldY w))
  ∧ DecodesAs 0xF00F#16 0x800E#16 (fun w => .shl (fieldX w) (fieldY w))
  ∧ (∀ (x y : Reg) (s : State), ∃ t, exec (.shr x y) s = .next t
      ∧ (t.reg Reg.vf).toNat = (s.reg x).toNat % 2
      ∧ (x ≠ Reg.vf → (t.reg x).toNat = (s.reg x).toNat / 2)
      ∧ KeepsRegsBut [x, Reg.vf] s t ∧ KeepsBut [] s t)
  ∧ (∀ (x y : Reg) (s : State), ∃ t, exec (.shl x y) s = .next t
      ∧ (t.reg Reg.vf).toNat = (s.reg x).toNat / 128
      ∧ (x ≠ Reg.vf → (t.reg x).toNat = (s.reg x).toNat * 2 % 256)
      ∧ KeepsRegsBut [x, Reg.vf] s t ∧ KeepsBut [] s t)

/-- R141 (the draw is the free value of log entry 4; the claim holds for every value of it): RND takes one draw and writes
it under the mask. -/
def Obligations.RandomByteIsMasked : Prop :=
  DecodesAs 0xF000#16 0xC000#16 (fun w => .rnd (fieldX w) (fieldNN w))
  ∧ ∀ (x : Reg) (nn : Byte) (s : State), ∃ t, exec (.rnd x nn) s = .next t
      ∧ (∀ k, (t.reg x).getLsbD k = ((Config.randomByte s.draws).getLsbD k && nn.getLsbD k))
      ∧ t.draws = s.draws + 1 ∧ KeepsRegsBut [x] s t ∧ KeepsBut [.draws] s t

/-! ## Index register and memory -/

/-- R150, R151, R152: the three writers of I; none writes a flag or checks the value. -/
def Obligations.IndexRegisterWrites : Prop :=
  DecodesAs 0xF000#16 0xA000#16 (fun w => .ldI (fieldNNN w))
  ∧ DecodesAs 0xF0FF#16 0xF01E#16 (fun w => .addI (fieldX w))
  ∧ DecodesAs 0xF0FF#16 0xF029#16 (fun w => .ldF (fieldX w))
  ∧ (∀ (nnn : Addr) (s : State), ∃ t, exec (.ldI nnn) s = .next t
      ∧ t.i.toNat = nnn.toNat ∧ KeepsRegsBut [] s t ∧ KeepsBut [.index] s t)
  ∧ (∀ (x : Reg) (s : State), ∃ t, exec (.addI x) s = .next t
      ∧ t.i.toNat = (s.i.toNat + (s.reg x).toNat) % 65536 ∧ KeepsRegsBut [] s t ∧ KeepsBut [.index] s t)
  ∧ (∀ (x : Reg) (s : State), ∃ t, exec (.ldF x) s = .next t
      ∧ t.i.toNat = (s.reg x).toNat * 5 ∧ KeepsRegsBut [] s t ∧ KeepsBut [.index] s t)

/-- R153 (the range by the spec's own decision D6): LD B stores the three decimal digits at I, I + 1, I + 2, and no other byte
changes. -/
def Obligations.BcdStoresThreeDigits : Prop :=
  DecodesAs 0xF0FF#16 0xF033#16 (fun w => .ldB (fieldX w))
  ∧ ∀ (x : Reg) (s : State), dataAddr s 2 ≤ 0xFFF → ∃ t, exec (.ldB x) s = .next t
      ∧ (t.mem.read (dataAddr s 0)).toNat = (s.reg x).toNat / 100
      ∧ (t.mem.read (dataAddr s 1)).toNat = (s.reg x).toNat / 10 % 10
      ∧ (t.mem.read (dataAddr s 2)).toNat = (s.reg x).toNat % 10
      ∧ KeepsBytesOutside (dataAddr s 0) 3 s t ∧ KeepsRegsBut [] s t ∧ KeepsBut [.memory] s t

/-- R154 (the range by the spec's own decision D6, I unchanged by D11): LD [I], Vx stores V0 to Vx at I up, and no other byte
changes. -/
def Obligations.BlockStoreWritesRegisters : Prop :=
  DecodesAs 0xF0FF#16 0xF055#16 (fun w => .ldMemV (fieldX w))
  ∧ ∀ (x : Reg) (s : State), dataAddr s x.toNat ≤ 0xFFF → ∃ t, exec (.ldMemV x) s = .next t
      ∧ (∀ r : Reg, r.toNat ≤ x.toNat → t.mem.read (dataAddr s r.toNat) = s.reg r)
      ∧ KeepsBytesOutside (dataAddr s 0) (x.toNat + 1) s t ∧ KeepsRegsBut [] s t ∧ KeepsBut [.memory] s t

/-- R155 (the range by the spec's own decision D6, I unchanged by D11): LD Vx, [I] loads V0 to Vx from I up, and no register above
Vx changes. -/
def Obligations.BlockLoadReadsRegisters : Prop :=
  DecodesAs 0xF0FF#16 0xF065#16 (fun w => .ldVMem (fieldX w))
  ∧ ∀ (x : Reg) (s : State), dataAddr s x.toNat ≤ 0xFFF → ∃ t, exec (.ldVMem x) s = .next t
      ∧ (∀ r : Reg, r.toNat ≤ x.toNat → t.reg r = s.mem.read (dataAddr s r.toNat))
      ∧ (∀ r : Reg, x.toNat < r.toNat → t.reg r = s.reg r)
      ∧ KeepsBut [] s t

/-- R53, R54 (the spec's own decision D6): a data access that would touch an address above 0xFFF raises AddressOutOfRange before
any effect; the address is an exact integer. -/
def Obligations.DataAccessOutOfRangeRaises : Prop :=
  (∀ (x : Reg) (s : State), 0xFFF < s.i.toNat + 2 → RaisesExactly .addressOutOfRange (.ldB x) s [])
  ∧ (∀ (x : Reg) (s : State), 0xFFF < s.i.toNat + x.toNat →
      RaisesExactly .addressOutOfRange (.ldMemV x) s [])
  ∧ (∀ (x : Reg) (s : State), 0xFFF < s.i.toNat + x.toNat →
      RaisesExactly .addressOutOfRange (.ldVMem x) s [])
  ∧ (∀ (x y : Reg) (n : Nibble) (s : State), 0 < n.toNat → 0xFFF < s.i.toNat + n.toNat - 1 →
      RaisesExactly .addressOutOfRange (.drw x y n) s [])

/-! ## Display -/

/-- R165: CLS clears every display byte and nothing else. -/
def Obligations.ClsClearsTheDisplay : Prop :=
  decode 0x00E0#16 = .ok .cls
  ∧ ∀ s : State, ∃ t, exec .cls s = .next t
      ∧ (∀ row col, fbRead t.fb row col = 0#8) ∧ KeepsRegsBut [] s t ∧ KeepsBut [.display] s t

/-- R166, R167, R169 (the range and the order of writes by the spec's own decisions D6 and D3): in range, DRW XORs the sprite onto
the display pixel by pixel, with wrap-around on both axes, and VF says whether a lit pixel was covered. -/
def Obligations.DrawIsPixelwiseXor : Prop :=
  DecodesAs 0xF000#16 0xD000#16 (fun w => .drw (fieldX w) (fieldY w) (fieldN w))
  ∧ ∀ (x y : Reg) (n : Nibble) (s : State), s.i.toNat + n.toNat ≤ 0x1000 ∨ n = 0x0#4 →
    ∃ t, exec (.drw x y n) s = .next t
      ∧ (∀ px py, pixel t.fb px py
          = (pixel s.fb px py ^^ spriteCovers s.mem (dataAddr s 0) (s.reg x) (s.reg y) n.toNat px py))
      ∧ ((t.reg Reg.vf = 1#8 ∧ ∃ px py, pixel s.fb px py = true
            ∧ spriteCovers s.mem (dataAddr s 0) (s.reg x) (s.reg y) n.toNat px py = true)
        ∨ (t.reg Reg.vf = 0#8 ∧ ∀ px py, pixel s.fb px py = true →
            spriteCovers s.mem (dataAddr s 0) (s.reg x) (s.reg y) n.toNat px py = false))
      ∧ KeepsRegsBut [Reg.vf] s t ∧ KeepsBut [.display] s t

/-- R168: DRW with n = 0 reads nothing, draws nothing and sets VF to 0, wherever I points. -/
def Obligations.DrawOfNoRows : Prop :=
  ∀ (x y : Reg) (s : State), ∃ t, exec (.drw x y 0x0#4) s = .next t
    ∧ t.reg Reg.vf = 0#8 ∧ KeepsRegsBut [Reg.vf] s t ∧ KeepsBut [] s t

/-- Property Q6 of spec/95_test_vectors.md, and R167: the second of two equal draws undoes the first; on a clear display
the first reports no collision, and the second one if anything was drawn. -/
def Obligations.SecondDrawErasesTheFirst : Prop :=
  ∀ (x y : Reg) (n : Nibble) (s : State), x ≠ Reg.vf → y ≠ Reg.vf → s.i.toNat + n.toNat ≤ 0x1000 →
    ∃ t u, exec (.drw x y n) s = .next t ∧ exec (.drw x y n) t = .next u ∧ u.fb = s.fb
      ∧ (s.fb = fbBlank → t.reg Reg.vf = 0#8 ∧ (t.fb ≠ fbBlank → u.reg Reg.vf = 1#8))

/-! ## Keyboard and timers -/

/-- R175, R176 (the queue of answers is the model's own, log entry 5): when the keyboard answers a key, SKP skips exactly if it
equals Vx and SKNP exactly if it differs. -/
def Obligations.KeySkips : Prop :=
  DecodesAs 0xF0FF#16 0xE09E#16 (fun w => .skp (fieldX w))
  ∧ DecodesAs 0xF0FF#16 0xE0A1#16 (fun w => .sknp (fieldX w))
  ∧ ∀ (x : Reg) (s : State) (k : Nibble) (rest : List KeyAnswer), s.keyAnswers = .key k :: rest →
    (∃ t, exec (.skp x) s = .next t
      ∧ t.pc = (if k.toNat = (s.reg x).toNat then s.pc + 2#16 else s.pc)
      ∧ t.keyAnswers = rest ∧ t.status = .running
      ∧ KeepsRegsBut [] s t ∧ KeepsBut [.pc, .answers, .status] s t)
    ∧ (∃ t, exec (.sknp x) s = .next t
      ∧ t.pc = (if k.toNat ≠ (s.reg x).toNat then s.pc + 2#16 else s.pc)
      ∧ t.keyAnswers = rest ∧ t.status = .running
      ∧ KeepsRegsBut [] s t ∧ KeepsBut [.pc, .answers, .status] s t)

/-- R178 (the queue of answers is the model's own, log entry 5): when the keyboard answers a key, LD Vx, K loads it. -/
def Obligations.KeyIsLoaded : Prop :=
  DecodesAs 0xF0FF#16 0xF00A#16 (fun w => .ldVK (fieldX w))
  ∧ ∀ (x : Reg) (s : State) (k : Nibble) (rest : List KeyAnswer), s.keyAnswers = .key k :: rest →
    ∃ t, exec (.ldVK x) s = .next t
      ∧ (t.reg x).toNat = k.toNat ∧ t.keyAnswers = rest ∧ t.status = .running
      ∧ KeepsRegsBut [x] s t ∧ KeepsBut [.answers, .status] s t

/-- R42, R175, R176, R178 (the spec's own decision D13; the queue is the model's, log entry 5): `Cancel` raises KeyWaitCancelled
and the instruction has no effect. -/
def Obligations.CancelledKeyWaitRaises : Prop :=
  ∀ (kind : KeyOp) (x : Reg) (s : State) (rest : List KeyAnswer), s.keyAnswers = .cancel :: rest →
    RaisesExactly .keyWaitCancelled (kind.instr x) s [.answers]

/-- R35, R42, R182 (the content of the status is the model's, log entry 6): with no answer given, a key instruction opens its
request: the status is AwaitKey and no other state changes. -/
def Obligations.KeyRequestOpens : Prop :=
  ∀ (kind : KeyOp) (x : Reg) (s : State), s.keyAnswers = [] →
    ∃ t, exec (kind.instr x) s = .next t
      ∧ t.status = .awaitKey kind x ∧ KeepsRegsBut [] s t ∧ KeepsBut [.status] s t

/-- R177, R179, R180: the timer transfers; a tick that runs LD Vx, DT reads DT as its first step left it, so LD DT, Vx and
then LD Vy, DT leave one less than Vx in Vy. -/
def Obligations.TimerTransfers : Prop :=
  DecodesAs 0xF0FF#16 0xF007#16 (fun w => .ldVDT (fieldX w))
  ∧ DecodesAs 0xF0FF#16 0xF015#16 (fun w => .ldDTV (fieldX w))
  ∧ DecodesAs 0xF0FF#16 0xF018#16 (fun w => .ldSTV (fieldX w))
  ∧ (∀ (x : Reg) (s : State), ∃ t, exec (.ldVDT x) s = .next t
      ∧ t.reg x = s.dt ∧ KeepsRegsBut [x] s t ∧ KeepsBut [] s t)
  ∧ (∀ (x : Reg) (s : State), ∃ t, exec (.ldDTV x) s = .next t
      ∧ t.dt = s.reg x ∧ KeepsRegsBut [] s t ∧ KeepsBut [.delay] s t)
  ∧ (∀ (x : Reg) (s : State), ∃ t, exec (.ldSTV x) s = .next t
      ∧ t.st = s.reg x ∧ KeepsRegsBut [] s t ∧ KeepsBut [.sound] s t)
  ∧ (∀ (x : Reg) (s : State), s.status = .running → s.pc.toNat ≤ 0xFFE →
      decode (fetchWord s) = .ok (.ldVDT x) →
      ∃ t, step s = .next t ∧ (t.reg x).toNat = s.dt.toNat - 1 ∧ t.dt.toNat = s.dt.toNat - 1)
  ∧ (∀ (x y : Reg) (s : State), s.status = .running → s.pc.toNat ≤ 0xFFC →
      decode (fetchWord s) = .ok (.ldDTV x) → decode (s.mem.readWord (s.pc.toNat + 2)) = .ok (.ldVDT y) →
      ∃ t u, step s = .next t ∧ t.dt = s.reg x ∧ step t = .next u ∧ (u.reg y).toNat = (s.reg x).toNat - 1)

/-! ## Assembly text -/

/-- Vectors of spec/95_test_vectors.md 2.2 (R89 to R97; the forms are the spec's own decisions D18 to D21): assembly, its
errors, and disassembly. -/
def Obligations.AssemblyVectors : Prop :=
  assemble ['l', 'd', ' ', 'v', 'a', ' ', '#', '0', '5'] = .ok [0x6A#8, 0x05#8]
  ∧ assemble ['L', 'D', ' ', 'V', '0', ',', '#', '5'] = .error (.malformed 1)
  ∧ assemble ['D', 'R', 'W', ' ', 'V', '1', ',', ' ', 'V', '2', ',', ' ', 'F'] = .ok [0xD1#8, 0x2F#8]
  ∧ assemble ['C', 'L', 'S', '\n', '\n', 'F', 'O', 'O'] = .error (.malformed 3)
  ∧ disassemble 0x6A05#16 = .ok ['L', 'D', ' ', 'V', 'A', ',', ' ', '#', '5']
  ∧ disassemble 0xB00F#16 = .ok ['J', 'P', ' ', 'V', '0', ',', ' ', 'F']
  ∧ disassemble 0x5121#16 = .error .unsupportedOpcode

/-- R98 (the forms are the spec's own decisions D20 and D21; its second half the spec derives): the text of an assembled
line is the canonical form of that line, and the text of a word assembles to that word. -/
def Obligations.TextRoundTrip : Prop :=
  (∀ (line : Text) (bytes : List Byte), '\n' ∉ line → lineTokens line ≠ [] → assemble line = .ok bytes →
    ∃ w, bytes = [highByte w, lowByte w] ∧ disassemble w = .ok (canonicalize line))
  ∧ (∀ (w : Word) (text : Text), disassemble w = .ok text → assemble text = .ok [highByte w, lowByte w])

/-- R94, R95 (the spec's own decisions D18 and D22): assembly fails with the number of the first line, counted from 1 over
every line, that is not blank and matches no form; and what it gives fits a program image. That it stops at the first such
line is the model's choice (log entry 17): R94 leaves it to the caller. -/
def Obligations.AssemblerNumbersLines : Prop :=
  (∀ (text : Text) (n : Nat), assemble text = .error (.malformed n) ↔
    ∃ k line, n = k + 1 ∧ (linesFrom [] text)[k]? = some line
      ∧ lineTokens line ≠ [] ∧ parseTokens (lineTokens line) = none
      ∧ ∀ j l, j < k → (linesFrom [] text)[j]? = some l →
          lineTokens l = [] ∨ ∃ i, parseTokens (lineTokens l) = some i)
  ∧ (∀ (text : Text) (bytes : List Byte), assemble text = .ok bytes → bytes.length ≤ 3584)
end

