-- ==== Sys2Proof/Laws/Encoding.lean ====
section
/-!
SUPPORT. The fields of a word as numbers, and the fields of a packed word.
-/

namespace Sys2Proof

theorem toNat_append_eq {a b : Nat} (x : BitVec a) (y : BitVec b) :
    (x ++ y).toNat = x.toNat * 2 ^ b + y.toNat := by
  rw [BitVec.toNat_append, ← Nat.shiftLeft_add_eq_or_of_lt y.isLt, Nat.shiftLeft_eq]

/-! ## Fields as numbers (R70) -/

theorem op_toNat (w : Word) : (op w).toNat = w.toNat / 4096 % 16 := by
  simp [op, Nat.shiftRight_eq_div_pow]

theorem fieldX_toNat (w : Word) : (fieldX w).toNat = w.toNat / 256 % 16 := by
  simp [fieldX, Nat.shiftRight_eq_div_pow]

theorem fieldY_toNat (w : Word) : (fieldY w).toNat = w.toNat / 16 % 16 := by
  simp [fieldY, Nat.shiftRight_eq_div_pow]

theorem fieldN_toNat (w : Word) : (fieldN w).toNat = w.toNat % 16 := by
  simp [fieldN, Nat.shiftRight_eq_div_pow]

theorem fieldNN_toNat (w : Word) : (fieldNN w).toNat = w.toNat % 256 := by
  simp [fieldNN, Nat.shiftRight_eq_div_pow]

theorem fieldNNN_toNat (w : Word) : (fieldNNN w).toNat = w.toNat % 4096 := by
  simp [fieldNNN, Nat.shiftRight_eq_div_pow]

theorem highByte_toNat (w : Word) : (highByte w).toNat = w.toNat / 256 % 256 := by
  simp [highByte, Nat.shiftRight_eq_div_pow]

theorem lowByte_toNat (w : Word) : (lowByte w).toNat = w.toNat % 256 := by
  simp [lowByte, Nat.shiftRight_eq_div_pow]

/-! ## Packed words as numbers (R87) -/

theorem packXYN_toNat (o : Nibble) (x y : Reg) (n : Nibble) :
    (packXYN o x y n).toNat = o.toNat * 4096 + x.toNat * 256 + y.toNat * 16 + n.toNat := by
  simp only [packXYN, toNat_append_eq]; omega

theorem packXNN_toNat (o : Nibble) (x : Reg) (nn : Byte) :
    (packXNN o x nn).toNat = o.toNat * 4096 + x.toNat * 256 + nn.toNat := by
  simp only [packXNN, toNat_append_eq]; omega

theorem packNNN_toNat (o : Nibble) (nnn : Addr) :
    (packNNN o nnn).toNat = o.toNat * 4096 + nnn.toNat := by
  simp only [packNNN, toNat_append_eq]; omega

/-! ## The fields of a packed word -/

@[simp] theorem op_packXYN (o : Nibble) (x y : Reg) (n : Nibble) : op (packXYN o x y n) = o := by
  apply BitVec.eq_of_toNat_eq; rw [op_toNat, packXYN_toNat]; omega

@[simp] theorem fieldX_packXYN (o : Nibble) (x y : Reg) (n : Nibble) : fieldX (packXYN o x y n) = x := by
  apply BitVec.eq_of_toNat_eq; rw [fieldX_toNat, packXYN_toNat]; omega

@[simp] theorem fieldY_packXYN (o : Nibble) (x y : Reg) (n : Nibble) : fieldY (packXYN o x y n) = y := by
  apply BitVec.eq_of_toNat_eq; rw [fieldY_toNat, packXYN_toNat]; omega

@[simp] theorem fieldN_packXYN (o : Nibble) (x y : Reg) (n : Nibble) : fieldN (packXYN o x y n) = n := by
  apply BitVec.eq_of_toNat_eq; rw [fieldN_toNat, packXYN_toNat]; omega

@[simp] theorem op_packXNN (o : Nibble) (x : Reg) (nn : Byte) : op (packXNN o x nn) = o := by
  apply BitVec.eq_of_toNat_eq; rw [op_toNat, packXNN_toNat]; omega

@[simp] theorem fieldX_packXNN (o : Nibble) (x : Reg) (nn : Byte) : fieldX (packXNN o x nn) = x := by
  apply BitVec.eq_of_toNat_eq; rw [fieldX_toNat, packXNN_toNat]; omega

@[simp] theorem fieldNN_packXNN (o : Nibble) (x : Reg) (nn : Byte) : fieldNN (packXNN o x nn) = nn := by
  apply BitVec.eq_of_toNat_eq; rw [fieldNN_toNat, packXNN_toNat]; omega

@[simp] theorem op_packNNN (o : Nibble) (nnn : Addr) : op (packNNN o nnn) = o := by
  apply BitVec.eq_of_toNat_eq; rw [op_toNat, packNNN_toNat]; omega

@[simp] theorem fieldNNN_packNNN (o : Nibble) (nnn : Addr) : fieldNNN (packNNN o nnn) = nnn := by
  apply BitVec.eq_of_toNat_eq; rw [fieldNNN_toNat, packNNN_toNat]; omega

/-! ## A word packed from its own fields -/

theorem packXYN_fields (w : Word) : packXYN (op w) (fieldX w) (fieldY w) (fieldN w) = w := by
  apply BitVec.eq_of_toNat_eq
  rw [packXYN_toNat, op_toNat, fieldX_toNat, fieldY_toNat, fieldN_toNat]; omega

theorem packXNN_fields (w : Word) : packXNN (op w) (fieldX w) (fieldNN w) = w := by
  apply BitVec.eq_of_toNat_eq
  rw [packXNN_toNat, op_toNat, fieldX_toNat, fieldNN_toNat]; omega

theorem packNNN_fields (w : Word) : packNNN (op w) (fieldNNN w) = w := by
  apply BitVec.eq_of_toNat_eq
  rw [packNNN_toNat, op_toNat, fieldNNN_toNat]; omega

/-- A word from its two bytes (R56). -/
theorem wordOfBytes_bytes (w : Word) : wordOfBytes (highByte w) (lowByte w) = w := by
  apply BitVec.eq_of_toNat_eq
  rw [wordOfBytes, toNat_append_eq, highByte_toNat, lowByte_toNat]; omega

/-! ## The fields that a mask keeps -/

theorem op_of_mask_F000 {w p : Word} (h : w &&& 0xF000#16 = p) : op w = op p := by
  rw [← h, op, op, BitVec.extractLsb'_and]; exact BitVec.and_allOnes.symm

theorem op_of_mask_F00F {w p : Word} (h : w &&& 0xF00F#16 = p) : op w = op p := by
  rw [← h, op, op, BitVec.extractLsb'_and]; exact BitVec.and_allOnes.symm

theorem fieldN_of_mask_F00F {w p : Word} (h : w &&& 0xF00F#16 = p) : fieldN w = fieldN p := by
  rw [← h, fieldN, fieldN, BitVec.extractLsb'_and]; exact BitVec.and_allOnes.symm

theorem op_of_mask_F0FF {w p : Word} (h : w &&& 0xF0FF#16 = p) : op w = op p := by
  rw [← h, op, op, BitVec.extractLsb'_and]; exact BitVec.and_allOnes.symm

theorem fieldNN_of_mask_F0FF {w p : Word} (h : w &&& 0xF0FF#16 = p) : fieldNN w = fieldNN p := by
  rw [← h, fieldNN, fieldNN, BitVec.extractLsb'_and]; exact BitVec.and_allOnes.symm

end Sys2Proof
end

