-- ==== Sys2Proof/Laws/Assembly.lean ====
section
/-!
SUPPORT. Digits and operands: what is read is what is written, and back; and what each form of operands can be.
-/

namespace Sys2Proof

@[simp] theorem hexDigit_hexChar (d : Nibble) : hexDigit (hexChar d) = some d := by
  revert d; decide

theorem eq_hexChar_of_hexDigit {c : Char} {d : Nibble} (h : hexDigit c = some d) : c = hexChar d := by
  unfold hexDigit at h
  split at h <;> first | (cases h; rfl) | cases h

@[simp] theorem isSpace_hexChar (d : Nibble) : isSpace (hexChar d) = false := by
  revert d; decide

@[simp] theorem toUpper_hexChar (d : Nibble) : (hexChar d).toUpper = hexChar d := by
  revert d; decide

@[simp] theorem parseReg_renderReg (x : Reg) : parseReg (renderReg x) = some x := hexDigit_hexChar x

theorem eq_renderReg_of_parseReg {t : Text} {x : Reg} (h : parseReg t = some x) : t = renderReg x := by
  unfold parseReg at h
  split at h
  · rw [eq_hexChar_of_hexDigit h]; rfl
  · cases h

@[simp] theorem parseByte_renderByte (b : Byte) : parseByte (renderByte b) = some b := by
  revert b; decide

@[simp] theorem parseNibble_renderNibble (n : Nibble) : parseNibble (renderNibble n) = some n := hexDigit_hexChar n

theorem formReg_cases {f : Reg → Instr} {a : Text} {i : Instr} (h : formReg f a = some i) :
    ∃ x, parseReg a = some x ∧ i = f x := by
  unfold formReg at h
  obtain ⟨x, hx, rfl⟩ := Option.map_eq_some_iff.1 h
  exact ⟨x, hx, rfl⟩

theorem formAddr_cases {f : Addr → Instr} {a : Text} {i : Instr} (h : formAddr f a = some i) :
    ∃ nnn, parseAddr a = some nnn ∧ i = f nnn := by
  unfold formAddr at h
  obtain ⟨x, hx, rfl⟩ := Option.map_eq_some_iff.1 h
  exact ⟨x, hx, rfl⟩

theorem formRegReg_cases {f : Reg → Reg → Instr} {a b : Text} {i : Instr} (h : formRegReg f a b = some i) :
    ∃ x y, parseReg a = some x ∧ parseReg b = some y ∧ i = f x y := by
  unfold formRegReg at h
  split at h
  · cases h; exact ⟨_, _, by assumption, by assumption, rfl⟩
  · cases h

theorem formRegByte_cases {f : Reg → Byte → Instr} {a b : Text} {i : Instr} (h : formRegByte f a b = some i) :
    ∃ x nn, parseReg a = some x ∧ parseByte b = some nn ∧ i = f x nn := by
  unfold formRegByte at h
  split at h
  · cases h; exact ⟨_, _, by assumption, by assumption, rfl⟩
  · cases h

theorem formRegRegNibble_cases {f : Reg → Reg → Nibble → Instr} {a b c : Text} {i : Instr}
    (h : formRegRegNibble f a b c = some i) :
    ∃ x y n, parseReg a = some x ∧ parseReg b = some y ∧ parseNibble c = some n ∧ i = f x y n := by
  unfold formRegRegNibble at h
  split at h
  · cases h; exact ⟨_, _, _, by assumption, by assumption, by assumption, rfl⟩
  · cases h

/-- A line without a line break is the one line of its text. -/
theorem linesFrom_of_one (cur line : Text) (h : '\n' ∉ line) : linesFrom cur line = [cur ++ line] := by
  induction line generalizing cur with
  | nil => simp [linesFrom]
  | cons c rest ih =>
    simp only [List.mem_cons, not_or] at h
    rw [linesFrom, if_neg (Ne.symm h.1), ih _ h.2]
    simp

end Sys2Proof
end

