-- ==== Sys2Proof/Laws/Memory.lean ====
section
/-!
SUPPORT. Memory: reading after writing, and every operation keeps the canonical form.
-/

namespace Sys2Proof.Machine

/-! ## Reading after writing -/

theorem Memory.read_erase (m : Memory) (a k : Nat) :
    (Memory.erase a m).read k = if k = a then Memory.background a else m.read k := by
  induction m with
  | nil => by_cases h : k = a <;> simp [Memory.erase, Memory.read, h]
  | cons cell rest ih =>
    by_cases hc : cell.1 = a
    · by_cases hk : k = a
      · subst hk; simp [Memory.erase, hc, ih]
      · simp [Memory.erase, hc, hk, ih, Memory.read, Ne.symm hk]
    · by_cases hk : k = a
      · subst hk; simp [Memory.erase, hc, Memory.read, ih]
      · simp [Memory.erase, hc, Memory.read, ih, hk]

theorem Memory.read_insert (m : Memory) (a k : Nat) (b : Byte)
    (h : ∀ cell ∈ m, cell.1 ≠ a) :
    (Memory.insert a b m).read k = if k = a then b else m.read k := by
  induction m with
  | nil => by_cases hk : k = a <;> simp [Memory.insert, Memory.read, hk, Ne.symm]
  | cons cell rest ih =>
    have ih := ih fun c hc => h c (List.mem_cons_of_mem _ hc)
    have hne : cell.1 ≠ a := h cell List.mem_cons_self
    unfold Memory.insert
    split
    · by_cases hk : k = a
      · simp [Memory.read, hk]
      · simp [Memory.read, hk, Ne.symm hk]
    · by_cases hk : k = a
      · subst hk; simp [Memory.read, hne, ih]
      · simp [Memory.read, ih, hk]

theorem Memory.erase_ne (m : Memory) (a : Nat) : ∀ cell ∈ Memory.erase a m, cell.1 ≠ a := by
  induction m with
  | nil => simp [Memory.erase]
  | cons cell rest ih =>
    unfold Memory.erase
    split
    · exact ih
    · rename_i h
      intro c hc
      rcases List.mem_cons.mp hc with rfl | hc
      · exact h
      · exact ih c hc

/-- Everything a write does to later reads, on any memory. -/
theorem Memory.read_write (m : Memory) (a k : Nat) (b : Byte) :
    (m.write a b).read k = if k = a ∧ a < memSize then b else m.read k := by
  unfold Memory.write
  by_cases ha : a < memSize
  · by_cases hb : b = Memory.background a
    · simp only [ha, hb, if_true, Memory.read_erase, and_true]
    · simp only [ha, hb, if_true, if_false, and_true,
        Memory.read_insert _ _ _ _ (Memory.erase_ne m a), Memory.read_erase]
      by_cases hk : k = a <;> simp [hk]
  · simp [ha]

/-- Everything a run of writes does to later reads. -/
theorem Memory.read_writeBytes (m : Memory) (a k : Nat) (bs : List Byte) (h : a + bs.length ≤ memSize) :
    (m.writeBytes a bs).read k
      = if a ≤ k ∧ k < a + bs.length then bs.getD (k - a) 0#8 else m.read k := by
  induction bs generalizing m a with
  | nil => simp [Memory.writeBytes]
  | cons b rest ih =>
    simp only [List.length_cons] at h ⊢
    rw [Memory.writeBytes, ih _ _ (by omega), Memory.read_write]
    by_cases h1 : k = a
    · subst h1
      have h2 : ¬(k + 1 ≤ k ∧ k < k + 1 + rest.length) := by omega
      have h3 : k ≤ k ∧ k < k + (rest.length + 1) := by omega
      have h4 : k < memSize := by omega
      rw [if_neg h2, if_pos h3, if_pos ⟨rfl, h4⟩]
      simp
    · by_cases h2 : a + 1 ≤ k ∧ k < a + 1 + rest.length
      · have : k - a = (k - (a + 1)) + 1 := by omega
        have h3 : a ≤ k ∧ k < a + (rest.length + 1) := by omega
        rw [if_pos h2, if_pos h3, this, List.getD_cons_succ]
      · have h3 : ¬(a ≤ k ∧ k < a + (rest.length + 1)) := by omega
        rw [if_neg h2, if_neg h3, if_neg fun h => h1 h.1]

/-! ## The canonical form -/

theorem Memory.canonicalFrom_mono {m : Memory} {lo lo' : Nat} (h : lo' ≤ lo)
    (hm : Memory.canonicalFrom lo m = true) : Memory.canonicalFrom lo' m = true := by
  cases m with
  | nil => rfl
  | cons cell rest =>
    simp only [Memory.canonicalFrom, Bool.and_eq_true, decide_eq_true_eq] at hm ⊢
    exact ⟨⟨⟨by omega, hm.1.1.2⟩, hm.1.2⟩, hm.2⟩

theorem Memory.erase_canonical {m : Memory} {lo : Nat} (a : Nat)
    (hm : Memory.canonicalFrom lo m = true) : Memory.canonicalFrom lo (Memory.erase a m) = true := by
  induction m generalizing lo with
  | nil => rfl
  | cons cell rest ih =>
    have hm' := hm
    simp only [Memory.canonicalFrom, Bool.and_eq_true, decide_eq_true_eq] at hm'
    unfold Memory.erase
    split
    · exact ih (Memory.canonicalFrom_mono (by omega) hm'.2)
    · simp only [Memory.canonicalFrom, Bool.and_eq_true, decide_eq_true_eq]
      exact ⟨hm'.1, ih hm'.2⟩

theorem Memory.insert_canonical {m : Memory} {lo a : Nat} {b : Byte} (hlo : lo ≤ a) (ha : a < memSize)
    (hb : b ≠ Memory.background a) (hne : ∀ cell ∈ m, cell.1 ≠ a)
    (hm : Memory.canonicalFrom lo m = true) : Memory.canonicalFrom lo (Memory.insert a b m) = true := by
  induction m generalizing lo with
  | nil => simp [Memory.insert, Memory.canonicalFrom, hlo, ha, hb]
  | cons cell rest ih =>
    have hc : cell.1 ≠ a := hne cell List.mem_cons_self
    have hm' := hm
    simp only [Memory.canonicalFrom, Bool.and_eq_true, decide_eq_true_eq] at hm'
    unfold Memory.insert
    split
    · simp only [Memory.canonicalFrom, Bool.and_eq_true, decide_eq_true_eq, bne_iff_ne]
      exact ⟨⟨⟨hlo, ha⟩, hb⟩, ⟨⟨⟨by omega, hm'.1.1.2⟩, by simpa using hm'.1.2⟩, hm'.2⟩⟩
    · simp only [Memory.canonicalFrom, Bool.and_eq_true, decide_eq_true_eq]
      exact ⟨hm'.1, ih (by omega) (fun c h => hne c (List.mem_cons_of_mem _ h)) hm'.2⟩

/-- A write keeps the canonical form. -/
theorem Memory.write_wf {m : Memory} (a : Nat) (b : Byte) (h : m.wf = true) : (m.write a b).wf = true := by
  unfold Memory.write
  split
  · split
    · exact Memory.erase_canonical a h
    · exact Memory.insert_canonical (Nat.zero_le a) (by assumption) (by assumption)
        (Memory.erase_ne m a) (Memory.erase_canonical a h)
  · exact h

/-- A run of writes keeps the canonical form. -/
theorem Memory.writeBytes_wf {m : Memory} (a : Nat) (bs : List Byte) (h : m.wf = true) :
    (m.writeBytes a bs).wf = true := by
  induction bs generalizing m a with
  | nil => exact h
  | cons b rest ih => exact ih _ (Memory.write_wf a b h)

/-- An address below every listed one reads as its background. -/
theorem Memory.read_of_lt {m : Memory} {lo k : Nat} (hk : k < lo) (hm : Memory.canonicalFrom lo m = true) :
    m.read k = Memory.background k := by
  induction m generalizing lo with
  | nil => rfl
  | cons cell rest ih =>
    simp only [Memory.canonicalFrom, Bool.and_eq_true, decide_eq_true_eq] at hm
    have h1 : cell.1 ≠ k := by omega
    simp only [Memory.read, h1, if_false]
    exact ih (by omega : k < cell.1 + 1) hm.2

theorem Memory.filterMap_range'_canonical (f : Nat → Byte) (a n : Nat) (h : a + n ≤ memSize) :
    Memory.canonicalFrom a ((List.range' a n).filterMap fun k =>
      if f k = Memory.background k then none else some (k, f k)) = true := by
  induction n generalizing a with
  | zero => rfl
  | succ n ih =>
    have ih := ih (a + 1) (by omega)
    rw [List.range'_succ, List.filterMap_cons]
    by_cases hf : f a = Memory.background a
    · simp only [hf, if_true]
      exact Memory.canonicalFrom_mono (by omega) ih
    · simp only [hf, if_false, Memory.canonicalFrom, Bool.and_eq_true, decide_eq_true_eq]
      exact ⟨⟨⟨Nat.le_refl a, by omega⟩, by simpa using hf⟩, ih⟩

theorem Memory.read_filterMap_range' (f : Nat → Byte) (a n k : Nat) :
    Memory.read ((List.range' a n).filterMap fun k =>
      if f k = Memory.background k then none else some (k, f k)) k
      = if a ≤ k ∧ k < a + n then f k else Memory.background k := by
  induction n generalizing a with
  | zero => simp [Memory.read]
  | succ n ih =>
    rw [List.range'_succ, List.filterMap_cons]
    by_cases hf : f a = Memory.background a
    · simp only [hf, if_true, ih]
      by_cases hk : k = a
      · subst hk; simp [hf]
      · have : (a + 1 ≤ k ∧ k < a + 1 + n) ↔ (a ≤ k ∧ k < a + (n + 1)) := by omega
        simp only [this]
    · simp only [hf, if_false, Memory.read, ih]
      by_cases hk : k = a
      · subst hk; simp
      · have : (a + 1 ≤ k ∧ k < a + 1 + n) ↔ (a ≤ k ∧ k < a + (n + 1)) := by omega
        simp only [this, Ne.symm hk, if_false]

/-- A memory built from a byte function is canonical. -/
theorem Memory.ofBytes_wf (f : Nat → Byte) : (Memory.ofBytes f).wf = true := by
  unfold Memory.wf Memory.ofBytes
  rw [List.range_eq_range']
  exact Memory.filterMap_range'_canonical f 0 memSize (by simp)

/-- A memory built from a byte function reads as it. -/
theorem Memory.read_ofBytes (f : Nat → Byte) (k : Nat) (h : k < memSize) : (Memory.ofBytes f).read k = f k := by
  unfold Memory.ofBytes
  rw [List.range_eq_range', Memory.read_filterMap_range']
  simp [h]

/-- The memory after reset has the canonical form. -/
theorem reset_mem_wf : State.reset.mem.wf = true := rfl

end Sys2Proof.Machine
end

