-- ==== Sys2Proof/Laws/State.lean ====
section
/-!
SUPPORT. One lemma per field per update of State, and the register file's read-after-write laws.
-/

namespace Sys2Proof.Machine

/-! ### setI -/

@[simp] theorem State.setI_v (s : State) (w : Word) : (s.setI w).v = s.v := rfl
@[simp] theorem State.setI_i (s : State) (w : Word) : (s.setI w).i = w := rfl
@[simp] theorem State.setI_pc (s : State) (w : Word) : (s.setI w).pc = s.pc := rfl
@[simp] theorem State.setI_dt (s : State) (w : Word) : (s.setI w).dt = s.dt := rfl
@[simp] theorem State.setI_st (s : State) (w : Word) : (s.setI w).st = s.st := rfl
@[simp] theorem State.setI_stack (s : State) (w : Word) : (s.setI w).stack = s.stack := rfl
@[simp] theorem State.setI_mem (s : State) (w : Word) : (s.setI w).mem = s.mem := rfl
@[simp] theorem State.setI_fb (s : State) (w : Word) : (s.setI w).fb = s.fb := rfl
@[simp] theorem State.setI_status (s : State) (w : Word) : (s.setI w).status = s.status := rfl
@[simp] theorem State.setI_keyAnswers (s : State) (w : Word) : (s.setI w).keyAnswers = s.keyAnswers := rfl
@[simp] theorem State.setI_draws (s : State) (w : Word) : (s.setI w).draws = s.draws := rfl
@[simp] theorem State.setI_underflowPolicy (s : State) (w : Word) : (s.setI w).underflowPolicy = s.underflowPolicy := rfl
@[simp] theorem State.setI_reg (s : State) (w : Word) (r : Reg) : (s.setI w).reg r = s.reg r := rfl

/-! ### setPc -/

@[simp] theorem State.setPc_v (s : State) (w : Word) : (s.setPc w).v = s.v := rfl
@[simp] theorem State.setPc_i (s : State) (w : Word) : (s.setPc w).i = s.i := rfl
@[simp] theorem State.setPc_pc (s : State) (w : Word) : (s.setPc w).pc = w := rfl
@[simp] theorem State.setPc_dt (s : State) (w : Word) : (s.setPc w).dt = s.dt := rfl
@[simp] theorem State.setPc_st (s : State) (w : Word) : (s.setPc w).st = s.st := rfl
@[simp] theorem State.setPc_stack (s : State) (w : Word) : (s.setPc w).stack = s.stack := rfl
@[simp] theorem State.setPc_mem (s : State) (w : Word) : (s.setPc w).mem = s.mem := rfl
@[simp] theorem State.setPc_fb (s : State) (w : Word) : (s.setPc w).fb = s.fb := rfl
@[simp] theorem State.setPc_status (s : State) (w : Word) : (s.setPc w).status = s.status := rfl
@[simp] theorem State.setPc_keyAnswers (s : State) (w : Word) : (s.setPc w).keyAnswers = s.keyAnswers := rfl
@[simp] theorem State.setPc_draws (s : State) (w : Word) : (s.setPc w).draws = s.draws := rfl
@[simp] theorem State.setPc_underflowPolicy (s : State) (w : Word) : (s.setPc w).underflowPolicy = s.underflowPolicy := rfl
@[simp] theorem State.setPc_reg (s : State) (w : Word) (r : Reg) : (s.setPc w).reg r = s.reg r := rfl

/-! ### setDt -/

@[simp] theorem State.setDt_v (s : State) (b : Byte) : (s.setDt b).v = s.v := rfl
@[simp] theorem State.setDt_i (s : State) (b : Byte) : (s.setDt b).i = s.i := rfl
@[simp] theorem State.setDt_pc (s : State) (b : Byte) : (s.setDt b).pc = s.pc := rfl
@[simp] theorem State.setDt_dt (s : State) (b : Byte) : (s.setDt b).dt = b := rfl
@[simp] theorem State.setDt_st (s : State) (b : Byte) : (s.setDt b).st = s.st := rfl
@[simp] theorem State.setDt_stack (s : State) (b : Byte) : (s.setDt b).stack = s.stack := rfl
@[simp] theorem State.setDt_mem (s : State) (b : Byte) : (s.setDt b).mem = s.mem := rfl
@[simp] theorem State.setDt_fb (s : State) (b : Byte) : (s.setDt b).fb = s.fb := rfl
@[simp] theorem State.setDt_status (s : State) (b : Byte) : (s.setDt b).status = s.status := rfl
@[simp] theorem State.setDt_keyAnswers (s : State) (b : Byte) : (s.setDt b).keyAnswers = s.keyAnswers := rfl
@[simp] theorem State.setDt_draws (s : State) (b : Byte) : (s.setDt b).draws = s.draws := rfl
@[simp] theorem State.setDt_underflowPolicy (s : State) (b : Byte) : (s.setDt b).underflowPolicy = s.underflowPolicy := rfl
@[simp] theorem State.setDt_reg (s : State) (b : Byte) (r : Reg) : (s.setDt b).reg r = s.reg r := rfl

/-! ### setSt -/

@[simp] theorem State.setSt_v (s : State) (b : Byte) : (s.setSt b).v = s.v := rfl
@[simp] theorem State.setSt_i (s : State) (b : Byte) : (s.setSt b).i = s.i := rfl
@[simp] theorem State.setSt_pc (s : State) (b : Byte) : (s.setSt b).pc = s.pc := rfl
@[simp] theorem State.setSt_dt (s : State) (b : Byte) : (s.setSt b).dt = s.dt := rfl
@[simp] theorem State.setSt_st (s : State) (b : Byte) : (s.setSt b).st = b := rfl
@[simp] theorem State.setSt_stack (s : State) (b : Byte) : (s.setSt b).stack = s.stack := rfl
@[simp] theorem State.setSt_mem (s : State) (b : Byte) : (s.setSt b).mem = s.mem := rfl
@[simp] theorem State.setSt_fb (s : State) (b : Byte) : (s.setSt b).fb = s.fb := rfl
@[simp] theorem State.setSt_status (s : State) (b : Byte) : (s.setSt b).status = s.status := rfl
@[simp] theorem State.setSt_keyAnswers (s : State) (b : Byte) : (s.setSt b).keyAnswers = s.keyAnswers := rfl
@[simp] theorem State.setSt_draws (s : State) (b : Byte) : (s.setSt b).draws = s.draws := rfl
@[simp] theorem State.setSt_underflowPolicy (s : State) (b : Byte) : (s.setSt b).underflowPolicy = s.underflowPolicy := rfl
@[simp] theorem State.setSt_reg (s : State) (b : Byte) (r : Reg) : (s.setSt b).reg r = s.reg r := rfl

/-! ### setStack -/

@[simp] theorem State.setStack_v (s : State) (l : List Word) : (s.setStack l).v = s.v := rfl
@[simp] theorem State.setStack_i (s : State) (l : List Word) : (s.setStack l).i = s.i := rfl
@[simp] theorem State.setStack_pc (s : State) (l : List Word) : (s.setStack l).pc = s.pc := rfl
@[simp] theorem State.setStack_dt (s : State) (l : List Word) : (s.setStack l).dt = s.dt := rfl
@[simp] theorem State.setStack_st (s : State) (l : List Word) : (s.setStack l).st = s.st := rfl
@[simp] theorem State.setStack_stack (s : State) (l : List Word) : (s.setStack l).stack = l := rfl
@[simp] theorem State.setStack_mem (s : State) (l : List Word) : (s.setStack l).mem = s.mem := rfl
@[simp] theorem State.setStack_fb (s : State) (l : List Word) : (s.setStack l).fb = s.fb := rfl
@[simp] theorem State.setStack_status (s : State) (l : List Word) : (s.setStack l).status = s.status := rfl
@[simp] theorem State.setStack_keyAnswers (s : State) (l : List Word) : (s.setStack l).keyAnswers = s.keyAnswers := rfl
@[simp] theorem State.setStack_draws (s : State) (l : List Word) : (s.setStack l).draws = s.draws := rfl
@[simp] theorem State.setStack_underflowPolicy (s : State) (l : List Word) : (s.setStack l).underflowPolicy = s.underflowPolicy := rfl
@[simp] theorem State.setStack_reg (s : State) (l : List Word) (r : Reg) : (s.setStack l).reg r = s.reg r := rfl

/-! ### setMem -/

@[simp] theorem State.setMem_v (s : State) (m : Memory) : (s.setMem m).v = s.v := rfl
@[simp] theorem State.setMem_i (s : State) (m : Memory) : (s.setMem m).i = s.i := rfl
@[simp] theorem State.setMem_pc (s : State) (m : Memory) : (s.setMem m).pc = s.pc := rfl
@[simp] theorem State.setMem_dt (s : State) (m : Memory) : (s.setMem m).dt = s.dt := rfl
@[simp] theorem State.setMem_st (s : State) (m : Memory) : (s.setMem m).st = s.st := rfl
@[simp] theorem State.setMem_stack (s : State) (m : Memory) : (s.setMem m).stack = s.stack := rfl
@[simp] theorem State.setMem_mem (s : State) (m : Memory) : (s.setMem m).mem = m := rfl
@[simp] theorem State.setMem_fb (s : State) (m : Memory) : (s.setMem m).fb = s.fb := rfl
@[simp] theorem State.setMem_status (s : State) (m : Memory) : (s.setMem m).status = s.status := rfl
@[simp] theorem State.setMem_keyAnswers (s : State) (m : Memory) : (s.setMem m).keyAnswers = s.keyAnswers := rfl
@[simp] theorem State.setMem_draws (s : State) (m : Memory) : (s.setMem m).draws = s.draws := rfl
@[simp] theorem State.setMem_underflowPolicy (s : State) (m : Memory) : (s.setMem m).underflowPolicy = s.underflowPolicy := rfl
@[simp] theorem State.setMem_reg (s : State) (m : Memory) (r : Reg) : (s.setMem m).reg r = s.reg r := rfl

/-! ### setFb -/

@[simp] theorem State.setFb_v (s : State) (d : Display) : (s.setFb d).v = s.v := rfl
@[simp] theorem State.setFb_i (s : State) (d : Display) : (s.setFb d).i = s.i := rfl
@[simp] theorem State.setFb_pc (s : State) (d : Display) : (s.setFb d).pc = s.pc := rfl
@[simp] theorem State.setFb_dt (s : State) (d : Display) : (s.setFb d).dt = s.dt := rfl
@[simp] theorem State.setFb_st (s : State) (d : Display) : (s.setFb d).st = s.st := rfl
@[simp] theorem State.setFb_stack (s : State) (d : Display) : (s.setFb d).stack = s.stack := rfl
@[simp] theorem State.setFb_mem (s : State) (d : Display) : (s.setFb d).mem = s.mem := rfl
@[simp] theorem State.setFb_fb (s : State) (d : Display) : (s.setFb d).fb = d := rfl
@[simp] theorem State.setFb_status (s : State) (d : Display) : (s.setFb d).status = s.status := rfl
@[simp] theorem State.setFb_keyAnswers (s : State) (d : Display) : (s.setFb d).keyAnswers = s.keyAnswers := rfl
@[simp] theorem State.setFb_draws (s : State) (d : Display) : (s.setFb d).draws = s.draws := rfl
@[simp] theorem State.setFb_underflowPolicy (s : State) (d : Display) : (s.setFb d).underflowPolicy = s.underflowPolicy := rfl
@[simp] theorem State.setFb_reg (s : State) (d : Display) (r : Reg) : (s.setFb d).reg r = s.reg r := rfl

/-! ### setStatus -/

@[simp] theorem State.setStatus_v (s : State) (x : Status) : (s.setStatus x).v = s.v := rfl
@[simp] theorem State.setStatus_i (s : State) (x : Status) : (s.setStatus x).i = s.i := rfl
@[simp] theorem State.setStatus_pc (s : State) (x : Status) : (s.setStatus x).pc = s.pc := rfl
@[simp] theorem State.setStatus_dt (s : State) (x : Status) : (s.setStatus x).dt = s.dt := rfl
@[simp] theorem State.setStatus_st (s : State) (x : Status) : (s.setStatus x).st = s.st := rfl
@[simp] theorem State.setStatus_stack (s : State) (x : Status) : (s.setStatus x).stack = s.stack := rfl
@[simp] theorem State.setStatus_mem (s : State) (x : Status) : (s.setStatus x).mem = s.mem := rfl
@[simp] theorem State.setStatus_fb (s : State) (x : Status) : (s.setStatus x).fb = s.fb := rfl
@[simp] theorem State.setStatus_status (s : State) (x : Status) : (s.setStatus x).status = x := rfl
@[simp] theorem State.setStatus_keyAnswers (s : State) (x : Status) : (s.setStatus x).keyAnswers = s.keyAnswers := rfl
@[simp] theorem State.setStatus_draws (s : State) (x : Status) : (s.setStatus x).draws = s.draws := rfl
@[simp] theorem State.setStatus_underflowPolicy (s : State) (x : Status) : (s.setStatus x).underflowPolicy = s.underflowPolicy := rfl
@[simp] theorem State.setStatus_reg (s : State) (x : Status) (r : Reg) : (s.setStatus x).reg r = s.reg r := rfl

/-! ### setKeyAnswers -/

@[simp] theorem State.setKeyAnswers_v (s : State) (l : List KeyAnswer) : (s.setKeyAnswers l).v = s.v := rfl
@[simp] theorem State.setKeyAnswers_i (s : State) (l : List KeyAnswer) : (s.setKeyAnswers l).i = s.i := rfl
@[simp] theorem State.setKeyAnswers_pc (s : State) (l : List KeyAnswer) : (s.setKeyAnswers l).pc = s.pc := rfl
@[simp] theorem State.setKeyAnswers_dt (s : State) (l : List KeyAnswer) : (s.setKeyAnswers l).dt = s.dt := rfl
@[simp] theorem State.setKeyAnswers_st (s : State) (l : List KeyAnswer) : (s.setKeyAnswers l).st = s.st := rfl
@[simp] theorem State.setKeyAnswers_stack (s : State) (l : List KeyAnswer) : (s.setKeyAnswers l).stack = s.stack := rfl
@[simp] theorem State.setKeyAnswers_mem (s : State) (l : List KeyAnswer) : (s.setKeyAnswers l).mem = s.mem := rfl
@[simp] theorem State.setKeyAnswers_fb (s : State) (l : List KeyAnswer) : (s.setKeyAnswers l).fb = s.fb := rfl
@[simp] theorem State.setKeyAnswers_status (s : State) (l : List KeyAnswer) : (s.setKeyAnswers l).status = s.status := rfl
@[simp] theorem State.setKeyAnswers_keyAnswers (s : State) (l : List KeyAnswer) : (s.setKeyAnswers l).keyAnswers = l := rfl
@[simp] theorem State.setKeyAnswers_draws (s : State) (l : List KeyAnswer) : (s.setKeyAnswers l).draws = s.draws := rfl
@[simp] theorem State.setKeyAnswers_underflowPolicy (s : State) (l : List KeyAnswer) : (s.setKeyAnswers l).underflowPolicy = s.underflowPolicy := rfl
@[simp] theorem State.setKeyAnswers_reg (s : State) (l : List KeyAnswer) (r : Reg) : (s.setKeyAnswers l).reg r = s.reg r := rfl

/-! ### setDraws -/

@[simp] theorem State.setDraws_v (s : State) (n : Nat) : (s.setDraws n).v = s.v := rfl
@[simp] theorem State.setDraws_i (s : State) (n : Nat) : (s.setDraws n).i = s.i := rfl
@[simp] theorem State.setDraws_pc (s : State) (n : Nat) : (s.setDraws n).pc = s.pc := rfl
@[simp] theorem State.setDraws_dt (s : State) (n : Nat) : (s.setDraws n).dt = s.dt := rfl
@[simp] theorem State.setDraws_st (s : State) (n : Nat) : (s.setDraws n).st = s.st := rfl
@[simp] theorem State.setDraws_stack (s : State) (n : Nat) : (s.setDraws n).stack = s.stack := rfl
@[simp] theorem State.setDraws_mem (s : State) (n : Nat) : (s.setDraws n).mem = s.mem := rfl
@[simp] theorem State.setDraws_fb (s : State) (n : Nat) : (s.setDraws n).fb = s.fb := rfl
@[simp] theorem State.setDraws_status (s : State) (n : Nat) : (s.setDraws n).status = s.status := rfl
@[simp] theorem State.setDraws_keyAnswers (s : State) (n : Nat) : (s.setDraws n).keyAnswers = s.keyAnswers := rfl
@[simp] theorem State.setDraws_draws (s : State) (n : Nat) : (s.setDraws n).draws = n := rfl
@[simp] theorem State.setDraws_underflowPolicy (s : State) (n : Nat) : (s.setDraws n).underflowPolicy = s.underflowPolicy := rfl
@[simp] theorem State.setDraws_reg (s : State) (n : Nat) (r : Reg) : (s.setDraws n).reg r = s.reg r := rfl

/-! ### setV -/

@[simp] theorem State.setV_v (s : State) (r : Vector Byte 16) : (s.setV r).v = r := rfl
@[simp] theorem State.setV_i (s : State) (r : Vector Byte 16) : (s.setV r).i = s.i := rfl
@[simp] theorem State.setV_pc (s : State) (r : Vector Byte 16) : (s.setV r).pc = s.pc := rfl
@[simp] theorem State.setV_dt (s : State) (r : Vector Byte 16) : (s.setV r).dt = s.dt := rfl
@[simp] theorem State.setV_st (s : State) (r : Vector Byte 16) : (s.setV r).st = s.st := rfl
@[simp] theorem State.setV_stack (s : State) (r : Vector Byte 16) : (s.setV r).stack = s.stack := rfl
@[simp] theorem State.setV_mem (s : State) (r : Vector Byte 16) : (s.setV r).mem = s.mem := rfl
@[simp] theorem State.setV_fb (s : State) (r : Vector Byte 16) : (s.setV r).fb = s.fb := rfl
@[simp] theorem State.setV_status (s : State) (r : Vector Byte 16) : (s.setV r).status = s.status := rfl
@[simp] theorem State.setV_keyAnswers (s : State) (r : Vector Byte 16) : (s.setV r).keyAnswers = s.keyAnswers := rfl
@[simp] theorem State.setV_draws (s : State) (r : Vector Byte 16) : (s.setV r).draws = s.draws := rfl
@[simp] theorem State.setV_underflowPolicy (s : State) (r : Vector Byte 16) : (s.setV r).underflowPolicy = s.underflowPolicy := rfl

/-! ### setReg -/

@[simp] theorem State.setReg_i (s : State) (x : Reg) (b : Byte) : (s.setReg x b).i = s.i := rfl
@[simp] theorem State.setReg_pc (s : State) (x : Reg) (b : Byte) : (s.setReg x b).pc = s.pc := rfl
@[simp] theorem State.setReg_dt (s : State) (x : Reg) (b : Byte) : (s.setReg x b).dt = s.dt := rfl
@[simp] theorem State.setReg_st (s : State) (x : Reg) (b : Byte) : (s.setReg x b).st = s.st := rfl
@[simp] theorem State.setReg_stack (s : State) (x : Reg) (b : Byte) : (s.setReg x b).stack = s.stack := rfl
@[simp] theorem State.setReg_mem (s : State) (x : Reg) (b : Byte) : (s.setReg x b).mem = s.mem := rfl
@[simp] theorem State.setReg_fb (s : State) (x : Reg) (b : Byte) : (s.setReg x b).fb = s.fb := rfl
@[simp] theorem State.setReg_status (s : State) (x : Reg) (b : Byte) : (s.setReg x b).status = s.status := rfl
@[simp] theorem State.setReg_keyAnswers (s : State) (x : Reg) (b : Byte) : (s.setReg x b).keyAnswers = s.keyAnswers := rfl
@[simp] theorem State.setReg_draws (s : State) (x : Reg) (b : Byte) : (s.setReg x b).draws = s.draws := rfl
@[simp] theorem State.setReg_underflowPolicy (s : State) (x : Reg) (b : Byte) : (s.setReg x b).underflowPolicy = s.underflowPolicy := rfl

theorem State.setReg_v (s : State) (x : Reg) (b : Byte) : (s.setReg x b).v = s.v.set x.toNat b := rfl

@[simp] theorem State.setV_reg (s : State) (r : Vector Byte 16) (x : Reg) :
    (s.setV r).reg x = r[x.toNat] := rfl

theorem State.reg_setReg (s : State) (x r : Reg) (b : Byte) :
    (s.setReg x b).reg r = if r = x then b else s.reg r := by
  simp only [State.reg, State.setReg_v, Vector.getElem_set, ← BitVec.toNat_inj, eq_comm]

@[simp] theorem State.reg_setReg_self (s : State) (x : Reg) (b : Byte) : (s.setReg x b).reg x = b := by
  simp [State.reg_setReg]

theorem State.reg_setReg_of_ne (s : State) {x r : Reg} (b : Byte) (h : r ≠ x) :
    (s.setReg x b).reg r = s.reg r := by
  simp [State.reg_setReg, h]

/-- Two register files that read the same everywhere are one. -/
theorem State.v_ext {s t : State} (h : ∀ r, s.reg r = t.reg r) : s.v = t.v := by
  apply Vector.ext
  intro k hk
  have := h (BitVec.ofNat 4 k)
  simpa [State.reg, Nat.mod_eq_of_lt hk] using this

end Sys2Proof.Machine
end

