-- ==== Sys2Proof/Laws/Ops.lean ====
section
/-!
SUPPORT. One lemma per shared operation, saying everything it can do, so that no proof unfolds it.
-/

namespace Sys2Proof.Machine

/-! ## Raising an error changes the status alone -/

@[simp] theorem raiseError_v (c : ErrorCode) (w : Word) (s : State) : (raiseError c w s).v = s.v := rfl
@[simp] theorem raiseError_i (c : ErrorCode) (w : Word) (s : State) : (raiseError c w s).i = s.i := rfl
@[simp] theorem raiseError_pc (c : ErrorCode) (w : Word) (s : State) : (raiseError c w s).pc = s.pc := rfl
@[simp] theorem raiseError_dt (c : ErrorCode) (w : Word) (s : State) : (raiseError c w s).dt = s.dt := rfl
@[simp] theorem raiseError_st (c : ErrorCode) (w : Word) (s : State) : (raiseError c w s).st = s.st := rfl
@[simp] theorem raiseError_stack (c : ErrorCode) (w : Word) (s : State) : (raiseError c w s).stack = s.stack := rfl
@[simp] theorem raiseError_mem (c : ErrorCode) (w : Word) (s : State) : (raiseError c w s).mem = s.mem := rfl
@[simp] theorem raiseError_fb (c : ErrorCode) (w : Word) (s : State) : (raiseError c w s).fb = s.fb := rfl
@[simp] theorem raiseError_status (c : ErrorCode) (w : Word) (s : State) :
    (raiseError c w s).status = .error { code := c, addr := s.pc - 2#16, word := some w } := rfl
@[simp] theorem raiseError_keyAnswers (c : ErrorCode) (w : Word) (s : State) : (raiseError c w s).keyAnswers = s.keyAnswers := rfl
@[simp] theorem raiseError_draws (c : ErrorCode) (w : Word) (s : State) : (raiseError c w s).draws = s.draws := rfl
@[simp] theorem raiseError_underflowPolicy (c : ErrorCode) (w : Word) (s : State) : (raiseError c w s).underflowPolicy = s.underflowPolicy := rfl
@[simp] theorem raiseError_reg (c : ErrorCode) (w : Word) (s : State) (r : Reg) : (raiseError c w s).reg r = s.reg r := rfl

/-! ## A skip changes PC alone -/

@[simp] theorem skipIf_v (c : Bool) (s : State) : (skipIf c s).v = s.v := by cases c <;> rfl
@[simp] theorem skipIf_i (c : Bool) (s : State) : (skipIf c s).i = s.i := by cases c <;> rfl
theorem skipIf_pc (c : Bool) (s : State) : (skipIf c s).pc = if c then s.pc + 2#16 else s.pc := by
  cases c <;> rfl
@[simp] theorem skipIf_dt (c : Bool) (s : State) : (skipIf c s).dt = s.dt := by cases c <;> rfl
@[simp] theorem skipIf_st (c : Bool) (s : State) : (skipIf c s).st = s.st := by cases c <;> rfl
@[simp] theorem skipIf_stack (c : Bool) (s : State) : (skipIf c s).stack = s.stack := by cases c <;> rfl
@[simp] theorem skipIf_mem (c : Bool) (s : State) : (skipIf c s).mem = s.mem := by cases c <;> rfl
@[simp] theorem skipIf_fb (c : Bool) (s : State) : (skipIf c s).fb = s.fb := by cases c <;> rfl
@[simp] theorem skipIf_status (c : Bool) (s : State) : (skipIf c s).status = s.status := by cases c <;> rfl
@[simp] theorem skipIf_keyAnswers (c : Bool) (s : State) : (skipIf c s).keyAnswers = s.keyAnswers := by cases c <;> rfl
@[simp] theorem skipIf_draws (c : Bool) (s : State) : (skipIf c s).draws = s.draws := by cases c <;> rfl
@[simp] theorem skipIf_underflowPolicy (c : Bool) (s : State) : (skipIf c s).underflowPolicy = s.underflowPolicy := by cases c <;> rfl
@[simp] theorem skipIf_reg (c : Bool) (s : State) (r : Reg) : (skipIf c s).reg r = s.reg r := by cases c <;> rfl

/-! ## A result and its flag change the register file alone -/

@[simp] theorem writeWithFlag_i (s : State) (x : Reg) (r : Byte) (c : Bool) :
    (writeWithFlag s x r c).i = s.i := rfl
@[simp] theorem writeWithFlag_pc (s : State) (x : Reg) (r : Byte) (c : Bool) :
    (writeWithFlag s x r c).pc = s.pc := rfl
@[simp] theorem writeWithFlag_dt (s : State) (x : Reg) (r : Byte) (c : Bool) :
    (writeWithFlag s x r c).dt = s.dt := rfl
@[simp] theorem writeWithFlag_st (s : State) (x : Reg) (r : Byte) (c : Bool) :
    (writeWithFlag s x r c).st = s.st := rfl
@[simp] theorem writeWithFlag_stack (s : State) (x : Reg) (r : Byte) (c : Bool) :
    (writeWithFlag s x r c).stack = s.stack := rfl
@[simp] theorem writeWithFlag_mem (s : State) (x : Reg) (r : Byte) (c : Bool) :
    (writeWithFlag s x r c).mem = s.mem := rfl
@[simp] theorem writeWithFlag_fb (s : State) (x : Reg) (r : Byte) (c : Bool) :
    (writeWithFlag s x r c).fb = s.fb := rfl
@[simp] theorem writeWithFlag_status (s : State) (x : Reg) (r : Byte) (c : Bool) :
    (writeWithFlag s x r c).status = s.status := rfl
@[simp] theorem writeWithFlag_keyAnswers (s : State) (x : Reg) (r : Byte) (c : Bool) :
    (writeWithFlag s x r c).keyAnswers = s.keyAnswers := rfl
@[simp] theorem writeWithFlag_draws (s : State) (x : Reg) (r : Byte) (c : Bool) :
    (writeWithFlag s x r c).draws = s.draws := rfl
@[simp] theorem writeWithFlag_underflowPolicy (s : State) (x : Reg) (r : Byte) (c : Bool) :
    (writeWithFlag s x r c).underflowPolicy = s.underflowPolicy := rfl

theorem writeWithFlag_reg (s : State) (x k : Reg) (r : Byte) (c : Bool) :
    (writeWithFlag s x r c).reg k = if k = Reg.vf then flagByte c else if k = x then r else s.reg k := by
  simp [writeWithFlag, State.reg_setReg]

/-! ## A draw counts itself and changes nothing else -/

@[simp] theorem drawByte_v (s : State) : (drawByte s).2.v = s.v := rfl
@[simp] theorem drawByte_i (s : State) : (drawByte s).2.i = s.i := rfl
@[simp] theorem drawByte_pc (s : State) : (drawByte s).2.pc = s.pc := rfl
@[simp] theorem drawByte_dt (s : State) : (drawByte s).2.dt = s.dt := rfl
@[simp] theorem drawByte_st (s : State) : (drawByte s).2.st = s.st := rfl
@[simp] theorem drawByte_stack (s : State) : (drawByte s).2.stack = s.stack := rfl
@[simp] theorem drawByte_mem (s : State) : (drawByte s).2.mem = s.mem := rfl
@[simp] theorem drawByte_fb (s : State) : (drawByte s).2.fb = s.fb := rfl
@[simp] theorem drawByte_status (s : State) : (drawByte s).2.status = s.status := rfl
@[simp] theorem drawByte_keyAnswers (s : State) : (drawByte s).2.keyAnswers = s.keyAnswers := rfl
@[simp] theorem drawByte_draws (s : State) : (drawByte s).2.draws = s.draws + 1 := rfl
@[simp] theorem drawByte_underflowPolicy (s : State) : (drawByte s).2.underflowPolicy = s.underflowPolicy := rfl
@[simp] theorem drawByte_reg (s : State) (r : Reg) : (drawByte s).2.reg r = s.reg r := rfl

/-! ## The timers -/

theorem countDown_toNat (t : Byte) : (countDown t).toNat = t.toNat - 1 := by
  unfold countDown
  split
  · next h => simp [h]
  · next h =>
    have h0 : t.toNat ≠ 0 := fun h' => h (BitVec.eq_of_toNat_eq (by simpa using h'))
    rw [BitVec.toNat_sub_of_le (by simp [BitVec.le_def]; omega)]
    simp

@[simp] theorem tickTimers_v (s : State) : (tickTimers s).v = s.v := rfl
@[simp] theorem tickTimers_i (s : State) : (tickTimers s).i = s.i := rfl
@[simp] theorem tickTimers_pc (s : State) : (tickTimers s).pc = s.pc := rfl
@[simp] theorem tickTimers_dt (s : State) : (tickTimers s).dt = countDown s.dt := rfl
@[simp] theorem tickTimers_st (s : State) : (tickTimers s).st = countDown s.st := rfl
@[simp] theorem tickTimers_stack (s : State) : (tickTimers s).stack = s.stack := rfl
@[simp] theorem tickTimers_mem (s : State) : (tickTimers s).mem = s.mem := rfl
@[simp] theorem tickTimers_fb (s : State) : (tickTimers s).fb = s.fb := rfl
@[simp] theorem tickTimers_status (s : State) : (tickTimers s).status = s.status := rfl
@[simp] theorem tickTimers_keyAnswers (s : State) : (tickTimers s).keyAnswers = s.keyAnswers := rfl
@[simp] theorem tickTimers_draws (s : State) : (tickTimers s).draws = s.draws := rfl
@[simp] theorem tickTimers_underflowPolicy (s : State) : (tickTimers s).underflowPolicy = s.underflowPolicy := rfl
@[simp] theorem tickTimers_reg (s : State) (r : Reg) : (tickTimers s).reg r = s.reg r := rfl

@[simp] theorem advancePc_v (s : State) : (advancePc s).v = s.v := rfl
@[simp] theorem advancePc_i (s : State) : (advancePc s).i = s.i := rfl
@[simp] theorem advancePc_pc (s : State) : (advancePc s).pc = s.pc + 2#16 := rfl
@[simp] theorem advancePc_dt (s : State) : (advancePc s).dt = s.dt := rfl
@[simp] theorem advancePc_st (s : State) : (advancePc s).st = s.st := rfl
@[simp] theorem advancePc_stack (s : State) : (advancePc s).stack = s.stack := rfl
@[simp] theorem advancePc_mem (s : State) : (advancePc s).mem = s.mem := rfl
@[simp] theorem advancePc_fb (s : State) : (advancePc s).fb = s.fb := rfl
@[simp] theorem advancePc_status (s : State) : (advancePc s).status = s.status := rfl
@[simp] theorem advancePc_keyAnswers (s : State) : (advancePc s).keyAnswers = s.keyAnswers := rfl
@[simp] theorem advancePc_draws (s : State) : (advancePc s).draws = s.draws := rfl
@[simp] theorem advancePc_underflowPolicy (s : State) : (advancePc s).underflowPolicy = s.underflowPolicy := rfl
@[simp] theorem advancePc_reg (s : State) (r : Reg) : (advancePc s).reg r = s.reg r := rfl

@[simp] theorem haltOutOfRange_v (s : State) : (haltOutOfRange s).v = s.v := rfl
@[simp] theorem haltOutOfRange_i (s : State) : (haltOutOfRange s).i = s.i := rfl
@[simp] theorem haltOutOfRange_pc (s : State) : (haltOutOfRange s).pc = s.pc := rfl
@[simp] theorem haltOutOfRange_dt (s : State) : (haltOutOfRange s).dt = s.dt := rfl
@[simp] theorem haltOutOfRange_st (s : State) : (haltOutOfRange s).st = s.st := rfl
@[simp] theorem haltOutOfRange_stack (s : State) : (haltOutOfRange s).stack = s.stack := rfl
@[simp] theorem haltOutOfRange_mem (s : State) : (haltOutOfRange s).mem = s.mem := rfl
@[simp] theorem haltOutOfRange_fb (s : State) : (haltOutOfRange s).fb = s.fb := rfl
@[simp] theorem haltOutOfRange_status (s : State) : (haltOutOfRange s).status = .halted { code := .programCounterOutOfRange, addr := s.pc, word := none } := rfl
@[simp] theorem haltOutOfRange_keyAnswers (s : State) : (haltOutOfRange s).keyAnswers = s.keyAnswers := rfl
@[simp] theorem haltOutOfRange_draws (s : State) : (haltOutOfRange s).draws = s.draws := rfl
@[simp] theorem haltOutOfRange_underflowPolicy (s : State) : (haltOutOfRange s).underflowPolicy = s.underflowPolicy := rfl
@[simp] theorem haltOutOfRange_reg (s : State) (r : Reg) : (haltOutOfRange s).reg r = s.reg r := rfl

@[simp] theorem fetchWord_tickTimers (s : State) : fetchWord (tickTimers s) = fetchWord s := rfl

@[simp] theorem pcOutOfRange_tickTimers (s : State) : pcOutOfRange (tickTimers s) = pcOutOfRange s := rfl

theorem pcOutOfRange_iff (s : State) : pcOutOfRange s = true ↔ 0xFFE < s.pc.toNat := by
  simp [pcOutOfRange]

/-! ## The range check of a data access -/

theorem dataOutOfRange_iff (s : State) (n : Nat) :
    dataOutOfRange s n = true ↔ 0 < n ∧ memSize < s.i.toNat + n := by
  rw [dataOutOfRange, Bool.and_eq_true, decide_eq_true_iff, decide_eq_true_iff, dataAddr, memSize]
  omega

/-- A data access depends on I alone. -/
@[simp] theorem dataAddr_setReg (s : State) (x : Reg) (b : Byte) (k : Nat) :
    dataAddr (s.setReg x b) k = dataAddr s k := rfl

@[simp] theorem dataOutOfRange_setReg (s : State) (x : Reg) (b : Byte) (n : Nat) :
    dataOutOfRange (s.setReg x b) n = dataOutOfRange s n := rfl

theorem dataAddr_eq (s : State) (k : Nat) : dataAddr s k = s.i.toNat + k := rfl

/-- A checked access with its range known. -/
theorem checkedAccess_inRange {s : State} {n : Nat} {i : Instr} {effect : Result}
    (h : n = 0 ∨ s.i.toNat + n ≤ memSize) : checkedAccess s n i effect = effect := by
  have hf : dataOutOfRange s n = false := by
    rw [← Bool.not_eq_true, dataOutOfRange_iff]; omega
  rw [checkedAccess, hf]

theorem checkedAccess_outOfRange {s : State} {n : Nat} {i : Instr} {effect : Result}
    (h0 : 0 < n) (h : memSize < s.i.toNat + n) :
    checkedAccess s n i effect = .next (raiseError .addressOutOfRange (encode i) s) := by
  rw [checkedAccess, (dataOutOfRange_iff s n).2 ⟨h0, h⟩]

/-- Everything a checked access can do. -/
theorem checkedAccess_cases (s : State) (n : Nat) (i : Instr) (effect : Result) :
    (0 < n ∧ memSize < s.i.toNat + n ∧
      checkedAccess s n i effect = .next (raiseError .addressOutOfRange (encode i) s)) ∨
    ((n = 0 ∨ s.i.toNat + n ≤ memSize) ∧ checkedAccess s n i effect = effect) := by
  by_cases h : 0 < n ∧ memSize < s.i.toNat + n
  · exact .inl ⟨h.1, h.2, checkedAccess_outOfRange h.1 h.2⟩
  · have h' : n = 0 ∨ s.i.toNat + n ≤ memSize := by omega
    exact .inr ⟨h', checkedAccess_inRange h'⟩

/-! ## The call stack -/

theorem pushWord_cases (w : Word) (s : State) :
    (s.stack.length < stackDepth ∧ pushWord w s = some (s.setStack (w :: s.stack))) ∨
    (stackDepth ≤ s.stack.length ∧ pushWord w s = none) := by
  unfold pushWord
  split
  · exact .inl ⟨by assumption, rfl⟩
  · exact .inr ⟨by omega, rfl⟩

theorem popWord_cases (s : State) :
    (s.stack = [] ∧ popWord s = none) ∨
    (∃ w rest, s.stack = w :: rest ∧ popWord s = some (w, s.setStack rest)) := by
  unfold popWord
  split
  · exact .inl ⟨by assumption, rfl⟩
  · exact .inr ⟨_, _, by assumption, rfl⟩

/-! ## The block load -/

theorem loadedBlock_reg (s : State) (x r : Reg) :
    (s.setV (loadedBlock s x)).reg r
      = if r.toNat ≤ x.toNat then s.mem.read (dataAddr s r.toNat) else s.reg r := by
  simp [loadedBlock, State.reg]

/-! ## The block store -/

theorem regBlock_length (s : State) (x : Reg) : (regBlock s x).length = x.toNat + 1 := by
  have := x.isLt
  simp [regBlock]; omega

theorem regBlock_getD (s : State) (x r : Reg) (h : r.toNat ≤ x.toNat) :
    (regBlock s x).getD r.toNat 0#8 = s.reg r := by
  have hr := r.isLt
  simp [regBlock, State.reg, Nat.lt_succ_of_le h, hr]

/-! ## The key wait -/

/-- Everything a key instruction can do: wait, act on a key, or be cancelled. -/
theorem keyWait_cases {kind : KeyOp} {x : Reg} {f : Nibble → State → State} {s t : State}
    (h : keyWait kind x f s = .next t) :
    (s.keyAnswers = [] ∧ t = s.setStatus (.awaitKey kind x)) ∨
    (∃ k rest, s.keyAnswers = .key k :: rest ∧ t = f k ((s.setKeyAnswers rest).setStatus .running)) ∨
    (∃ rest, s.keyAnswers = .cancel :: rest ∧
      t = raiseError .keyWaitCancelled (encode (kind.instr x)) (s.setKeyAnswers rest)) := by
  unfold keyWait at h
  split at h <;> cases h
  · exact .inl ⟨by assumption, rfl⟩
  · exact .inr (.inl ⟨_, _, by assumption, rfl⟩)
  · exact .inr (.inr ⟨_, by assumption, rfl⟩)

/-- A key wait always answers a next state. -/
theorem keyWait_next (kind : KeyOp) (x : Reg) (f : Nibble → State → State) (s : State) :
    ∃ t, keyWait kind x f s = .next t := by
  unfold keyWait
  split <;> exact ⟨_, rfl⟩

/-! ## The display port and the blit -/

theorem fbRead_fbWrite (d : Display) (row row' : Fin 32) (col col' : Fin 8) (b : Byte) :
    fbRead (fbWrite d row col b) row' col' = if row' = row ∧ col' = col then b else fbRead d row' col' := by
  simp only [fbRead, fbWrite, Fin.getElem_fin, Vector.getElem_set, Fin.ext_iff]
  by_cases hr : row'.val = row.val
  · have : row' = row := Fin.ext hr
    subst this
    by_cases hc : col'.val = col.val
    · simp [hc]
    · simp [hc, Ne.symm hc]
  · simp [hr, Ne.symm hr]

/-- Two surfaces that read the same everywhere are one. -/
theorem fbRead_ext {d e : Display} (h : ∀ row col, fbRead d row col = fbRead e row col) : d = e := by
  apply Vector.ext
  intro r hr
  apply Vector.ext
  intro c hc
  exact h ⟨r, hr⟩ ⟨c, hc⟩

theorem fbRead_fbBlank (row : Fin 32) (col : Fin 8) : fbRead fbBlank row col = 0#8 := by
  simp [fbRead, fbBlank]

/-- One target byte: what the surface reads afterwards, and the flag (R166, R167). -/
theorem blitByte_read (row row' : Fin 32) (col col' : Fin 8) (b : Byte) (p : Display × Bool) :
    fbRead (blitByte row col b p).1 row' col'
      = if row' = row ∧ col' = col then fbRead p.1 row col ^^^ b else fbRead p.1 row' col' :=
  fbRead_fbWrite _ _ _ _ _ _

theorem blitByte_flag (row : Fin 32) (col : Fin 8) (b : Byte) (p : Display × Bool) :
    (blitByte row col b p).2 = (p.2 || collides (fbRead p.1 row col) b) := rfl

/-- One sprite row: every byte of its display row gets its contribution by XOR (R166). -/
def rowPart (vx : Byte) (b : Byte) (col : Fin 8) : Byte :=
  if col = spriteCol vx then spriteLeft b (spriteShift vx)
  else if col = spriteCol vx + 1 then spriteRight b (spriteShift vx) else 0#8

theorem col_succ_ne (c : Fin 8) : c + 1 ≠ c := by
  revert c; decide

theorem blitRow_read (vx : Byte) (row row' : Fin 32) (b : Byte) (p : Display × Bool) (col : Fin 8) :
    fbRead (blitRow vx row b p).1 row' col
      = if row' = row then fbRead p.1 row col ^^^ rowPart vx b col else fbRead p.1 row' col := by
  unfold blitRow
  rw [blitByte_read, blitByte_read, blitByte_read]
  have hne := col_succ_ne (spriteCol vx)
  by_cases hr : row' = row
  · subst hr
    by_cases h1 : col = spriteCol vx
    · subst h1; simp [rowPart, Ne.symm hne]
    · by_cases h2 : col = spriteCol vx + 1
      · subst h2; simp [rowPart, hne]
      · simp [rowPart, h1, h2]
  · simp [hr]

theorem blitRow_flag (vx : Byte) (row : Fin 32) (b : Byte) (p : Display × Bool) :
    (blitRow vx row b p).2
      = (p.2 || collides (fbRead p.1 row (spriteCol vx)) (rowPart vx b (spriteCol vx))
          || collides (fbRead p.1 row (spriteCol vx + 1)) (rowPart vx b (spriteCol vx + 1))) := by
  unfold blitRow
  rw [blitByte_flag, blitByte_flag, blitByte_read]
  have hne := col_succ_ne (spriteCol vx)
  simp [rowPart, hne]

end Sys2Proof.Machine
end

