-- ==== Sys2Proof/Laws/Draw.lean ====
section
/-!
SUPPORT. What a whole sprite does to the display: one XOR per display byte, the collision flag, and the bits of a
contribution as pixels.
-/

namespace Sys2Proof.Machine

/-- The sprite row that falls on display row `row`, counted from the first one drawn at `vy + r` (R169). -/
def rowDistance (vy : Byte) (r : Nat) (row : Fin 32) : Nat := (row.val + 32 - (vy.toNat + r) % 32) % 32

theorem rowPart_zero (vx : Byte) (col : Fin 8) : rowPart vx 0#8 col = 0#8 := by
  unfold rowPart spriteLeft spriteRight
  simp

theorem rowDistance_spriteRow (vy : Byte) (r : Nat) : rowDistance vy r (spriteRow vy r) = 0 := by
  simp only [rowDistance, spriteRow]; omega

theorem rowDistance_eq_zero {vy : Byte} {r : Nat} {row : Fin 32} (h : rowDistance vy r row = 0) :
    row = spriteRow vy r := by
  apply Fin.ext
  have := row.isLt
  simp only [rowDistance, spriteRow] at h ⊢
  omega

theorem rowDistance_succ {vy : Byte} {r : Nat} {row : Fin 32} (h : row ≠ spriteRow vy r) :
    rowDistance vy r row = rowDistance vy (r + 1) row + 1 := by
  have hv : row.val ≠ (vy.toNat + r) % 32 := fun e => h (Fin.ext e)
  have := row.isLt
  simp only [rowDistance]
  omega

theorem rowDistance_spriteRow_succ (vy : Byte) (r : Nat) : rowDistance vy (r + 1) (spriteRow vy r) = 31 := by
  simp only [rowDistance, spriteRow]; omega

/-- Every display byte gets, by XOR, the contribution of the sprite row that falls on it (R166). -/
theorem blitRows_read (vx vy : Byte) (bs : List Byte) (r : Nat) (p : Display × Bool) (hl : bs.length + r ≤ 32)
    (row : Fin 32) (col : Fin 8) :
    fbRead (blitRows vx vy r bs p).1 row col
      = fbRead p.1 row col ^^^ rowPart vx (bs.getD (rowDistance vy r row) 0#8) col := by
  induction bs generalizing r p with
  | nil => simp [blitRows, rowPart_zero]
  | cons b rest ih =>
    simp only [List.length_cons] at hl
    rw [blitRows, ih (r + 1) _ (by omega), blitRow_read]
    by_cases h : row = spriteRow vy r
    · subst h
      rw [if_pos rfl, rowDistance_spriteRow, rowDistance_spriteRow_succ, List.getD_eq_default rest 0#8 (by omega),
        rowPart_zero]
      simp
    · rw [if_neg h, rowDistance_succ h]
      simp

/-- The collision flag of a whole sprite: a contribution meets a bit that was set (R167). -/
theorem blitRows_flag (vx vy : Byte) (bs : List Byte) (r : Nat) (p : Display × Bool) (hl : bs.length + r ≤ 32) :
    (blitRows vx vy r bs p).2 = true ↔
      p.2 = true ∨ ∃ row col,
        collides (fbRead p.1 row col) (rowPart vx (bs.getD (rowDistance vy r row) 0#8) col) = true := by
  have zero : ∀ a : Byte, collides a 0#8 = false := fun a => by simp [collides]
  induction bs generalizing r p with
  | nil => simp [blitRows, rowPart_zero, zero]
  | cons b rest ih =>
    simp only [List.length_cons] at hl
    rw [blitRows]
    refine (ih (r + 1) _ (by omega)).trans ?_
    rw [blitRow_flag]
    constructor
    · rintro (h | ⟨row, col, h⟩)
      · simp only [Bool.or_eq_true] at h
        rcases h with (h | h) | h
        · exact .inl h
        · exact .inr ⟨_, _, by rw [rowDistance_spriteRow]; exact h⟩
        · exact .inr ⟨_, _, by rw [rowDistance_spriteRow]; exact h⟩
      · by_cases hr : row = spriteRow vy r
        · subst hr
          rw [rowDistance_spriteRow_succ, List.getD_eq_default rest 0#8 (by omega), rowPart_zero, zero] at h
          cases h
        · rw [blitRow_read, if_neg hr] at h
          exact .inr ⟨row, col, by rw [rowDistance_succ hr]; exact h⟩
    · rintro (h | ⟨row, col, h⟩)
      · exact .inl (by simp [h])
      · by_cases hr : row = spriteRow vy r
        · subst hr
          rw [rowDistance_spriteRow] at h
          refine .inl ?_
          by_cases h1 : col = spriteCol vx
          · subst h1; simp only [Bool.or_eq_true]; exact .inl (.inr h)
          · by_cases h2 : col = spriteCol vx + 1
            · subst h2; simp only [Bool.or_eq_true]; exact .inr h
            · simp [rowPart, h1, h2, zero] at h
        · rw [rowDistance_succ hr] at h
          exact .inr ⟨row, col, by rw [blitRow_read, if_neg hr]; exact h⟩

/-- A bit of a contribution, as a pixel: bit `7 - dx` of the sprite byte, `dx` columns right of the sprite's left edge
(R37, R166, R169). -/
theorem rowPart_bit (vx b : Byte) (px : Fin 64) :
    (rowPart vx b ⟨px.val / 8, by omega⟩).getLsbD (7 - px.val % 8)
      = (decide ((px.val + 64 - vx.toNat % 64) % 64 < 8)
          && b.getLsbD (7 - (px.val + 64 - vx.toNat % 64) % 64)) := by
  have hp := px.isLt
  have hv : vx.toNat % 64 < 64 := Nat.mod_lt _ (by omega)
  have e1 : ((⟨px.val / 8, by omega⟩ : Fin 8) = spriteCol vx) ↔ px.val / 8 = vx.toNat % 64 / 8 := by
    rw [Fin.ext_iff]; rfl
  have e2 : ((⟨px.val / 8, by omega⟩ : Fin 8) = spriteCol vx + 1) ↔ px.val / 8 = (vx.toNat % 64 / 8 + 1) % 8 := by
    rw [Fin.ext_iff, Fin.val_add]; rfl
  unfold rowPart spriteLeft spriteRight spriteShift
  simp only [e1, e2]
  generalize vx.toNat % 64 = m at hv ⊢
  split
  · rw [BitVec.getLsbD_ushiftRight]
    by_cases h : m % 8 ≤ px.val % 8
    · rw [show m % 8 + (7 - px.val % 8) = 7 - (px.val + 64 - m) % 64 by omega,
        decide_eq_true (by omega), Bool.true_and]
    · rw [decide_eq_false (by omega), Bool.false_and]
      exact BitVec.getLsbD_of_ge _ _ (by omega)
  · split
    · rw [BitVec.getLsbD_shiftLeft]
      by_cases h : px.val % 8 < m % 8
      · rw [show 7 - px.val % 8 - (8 - m % 8) = 7 - (px.val + 64 - m) % 64 by omega,
          decide_eq_true (by omega : (px.val + 64 - m) % 64 < 8),
          decide_eq_true (by omega : 7 - px.val % 8 < 8), decide_eq_false (by omega : ¬ 7 - px.val % 8 < 8 - m % 8)]
        simp
      · rw [decide_eq_false (by omega : ¬ (px.val + 64 - m) % 64 < 8), decide_eq_true (by omega : 7 - px.val % 8 < 8 - m % 8)]
        simp
    · rw [decide_eq_false (by omega), Bool.false_and]
      simp

end Sys2Proof.Machine
end

