-- ==== Sys2Proof/Laws/PerInstr.lean ====
section
/-!
SUPPORT. Laws of every instruction as syntax, one lemma per constructor.
-/

namespace Sys2Proof.Laws.FixedBits

/-- The mask and match columns of spec/opcode_table.json. -/
def tableRow : Instr → Word × Word
  | .cls => (0xFFFF#16, 0x00E0#16)
  | .ret => (0xFFFF#16, 0x00EE#16)
  | .sys _ => (0xF000#16, 0x0000#16)
  | .jp _ => (0xF000#16, 0x1000#16)
  | .call _ => (0xF000#16, 0x2000#16)
  | .seVB _ _ => (0xF000#16, 0x3000#16)
  | .sneVB _ _ => (0xF000#16, 0x4000#16)
  | .seVV _ _ => (0xF00F#16, 0x5000#16)
  | .ldVB _ _ => (0xF000#16, 0x6000#16)
  | .addVB _ _ => (0xF000#16, 0x7000#16)
  | .ldVV _ _ => (0xF00F#16, 0x8000#16)
  | .orVV _ _ => (0xF00F#16, 0x8001#16)
  | .andVV _ _ => (0xF00F#16, 0x8002#16)
  | .xorVV _ _ => (0xF00F#16, 0x8003#16)
  | .addVV _ _ => (0xF00F#16, 0x8004#16)
  | .sub _ _ => (0xF00F#16, 0x8005#16)
  | .shr _ _ => (0xF00F#16, 0x8006#16)
  | .subn _ _ => (0xF00F#16, 0x8007#16)
  | .shl _ _ => (0xF00F#16, 0x800E#16)
  | .sneVV _ _ => (0xF00F#16, 0x9000#16)
  | .ldI _ => (0xF000#16, 0xA000#16)
  | .jpV0 _ => (0xF000#16, 0xB000#16)
  | .rnd _ _ => (0xF000#16, 0xC000#16)
  | .drw _ _ _ => (0xF000#16, 0xD000#16)
  | .skp _ => (0xF0FF#16, 0xE09E#16)
  | .sknp _ => (0xF0FF#16, 0xE0A1#16)
  | .ldVDT _ => (0xF0FF#16, 0xF007#16)
  | .ldVK _ => (0xF0FF#16, 0xF00A#16)
  | .ldDTV _ => (0xF0FF#16, 0xF015#16)
  | .ldSTV _ => (0xF0FF#16, 0xF018#16)
  | .addI _ => (0xF0FF#16, 0xF01E#16)
  | .ldF _ => (0xF0FF#16, 0xF029#16)
  | .ldB _ => (0xF0FF#16, 0xF033#16)
  | .ldMemV _ => (0xF0FF#16, 0xF055#16)
  | .ldVMem _ => (0xF0FF#16, 0xF065#16)

/-- The encoder puts an instruction's fixed bits where the opcode table has them. -/
def Statement (i : Instr) : Prop := encode i &&& (tableRow i).1 = (tableRow i).2

/-! ## Masking packed words -/

theorem packXYN_and (o o' : Nibble) (x x' y y' : Reg) (n n' : Nibble) :
    packXYN o x y n &&& packXYN o' x' y' n' = packXYN (o &&& o') (x &&& x') (y &&& y') (n &&& n') := by
  exact BitVec.and_append.trans (congrArg (· ++ (n &&& n'))
    (BitVec.and_append.trans (congrArg (· ++ (y &&& y')) BitVec.and_append)))

theorem packXNN_and (o o' : Nibble) (x x' : Reg) (n n' : Byte) :
    packXNN o x n &&& packXNN o' x' n' = packXNN (o &&& o') (x &&& x') (n &&& n') := by
  exact BitVec.and_append.trans (congrArg (· ++ (n &&& n')) BitVec.and_append)

theorem packNNN_and (o o' : Nibble) (n n' : Addr) :
    packNNN o n &&& packNNN o' n' = packNNN (o &&& o') (n &&& n') := by
  exact BitVec.and_append

theorem packNNN_fixed (o : Nibble) (n : Addr) : packNNN o n &&& 0xF000#16 = packNNN o 0#12 := by
  have h := packNNN_and o 0xF#4 n 0#12
  rwa [BitVec.and_zero, show o &&& 0xF#4 = o from BitVec.and_allOnes] at h

theorem packXNN_fixedOp (o : Nibble) (x : Reg) (n : Byte) : packXNN o x n &&& 0xF000#16 = packXNN o 0#4 0#8 := by
  have h := packXNN_and o 0xF#4 x 0#4 n 0#8
  rwa [BitVec.and_zero, BitVec.and_zero, show o &&& 0xF#4 = o from BitVec.and_allOnes] at h

theorem packXNN_fixed (o : Nibble) (x : Reg) (n : Byte) : packXNN o x n &&& 0xF0FF#16 = packXNN o 0#4 n := by
  have h := packXNN_and o 0xF#4 x 0#4 n 0xFF#8
  rwa [BitVec.and_zero, show o &&& 0xF#4 = o from BitVec.and_allOnes,
    show n &&& 0xFF#8 = n from BitVec.and_allOnes] at h

theorem packXYN_fixedOp (o : Nibble) (x y : Reg) (n : Nibble) :
    packXYN o x y n &&& 0xF000#16 = packXYN o 0#4 0#4 0#4 := by
  have h := packXYN_and o 0xF#4 x 0#4 y 0#4 n 0#4
  rwa [BitVec.and_zero, BitVec.and_zero, BitVec.and_zero, show o &&& 0xF#4 = o from BitVec.and_allOnes] at h

theorem packXYN_fixed (o : Nibble) (x y : Reg) (n : Nibble) :
    packXYN o x y n &&& 0xF00F#16 = packXYN o 0#4 0#4 n := by
  have h := packXYN_and o 0xF#4 x 0#4 y 0#4 n 0xF#4
  rwa [BitVec.and_zero, BitVec.and_zero, show o &&& 0xF#4 = o from BitVec.and_allOnes,
    show n &&& 0xF#4 = n from BitVec.and_allOnes] at h

/-! ## One lemma per constructor -/

theorem cls : Statement .cls := by unfold Statement; decide
theorem ret : Statement .ret := by unfold Statement; decide
theorem sys (nnn : Addr) : Statement (.sys nnn) := packNNN_fixed _ _
theorem jp (nnn : Addr) : Statement (.jp nnn) := packNNN_fixed _ _
theorem call (nnn : Addr) : Statement (.call nnn) := packNNN_fixed _ _
theorem seVB (x : Reg) (nn : Byte) : Statement (.seVB x nn) := packXNN_fixedOp _ _ _
theorem sneVB (x : Reg) (nn : Byte) : Statement (.sneVB x nn) := packXNN_fixedOp _ _ _
theorem seVV (x : Reg) (y : Reg) : Statement (.seVV x y) := packXYN_fixed _ _ _ _
theorem ldVB (x : Reg) (nn : Byte) : Statement (.ldVB x nn) := packXNN_fixedOp _ _ _
theorem addVB (x : Reg) (nn : Byte) : Statement (.addVB x nn) := packXNN_fixedOp _ _ _
theorem ldVV (x : Reg) (y : Reg) : Statement (.ldVV x y) := packXYN_fixed _ _ _ _
theorem orVV (x : Reg) (y : Reg) : Statement (.orVV x y) := packXYN_fixed _ _ _ _
theorem andVV (x : Reg) (y : Reg) : Statement (.andVV x y) := packXYN_fixed _ _ _ _
theorem xorVV (x : Reg) (y : Reg) : Statement (.xorVV x y) := packXYN_fixed _ _ _ _
theorem addVV (x : Reg) (y : Reg) : Statement (.addVV x y) := packXYN_fixed _ _ _ _
theorem sub (x : Reg) (y : Reg) : Statement (.sub x y) := packXYN_fixed _ _ _ _
theorem shr (x : Reg) (y : Reg) : Statement (.shr x y) := packXYN_fixed _ _ _ _
theorem subn (x : Reg) (y : Reg) : Statement (.subn x y) := packXYN_fixed _ _ _ _
theorem shl (x : Reg) (y : Reg) : Statement (.shl x y) := packXYN_fixed _ _ _ _
theorem sneVV (x : Reg) (y : Reg) : Statement (.sneVV x y) := packXYN_fixed _ _ _ _
theorem ldI (nnn : Addr) : Statement (.ldI nnn) := packNNN_fixed _ _
theorem jpV0 (nnn : Addr) : Statement (.jpV0 nnn) := packNNN_fixed _ _
theorem rnd (x : Reg) (nn : Byte) : Statement (.rnd x nn) := packXNN_fixedOp _ _ _
theorem drw (x : Reg) (y : Reg) (n : Nibble) : Statement (.drw x y n) := packXYN_fixedOp _ _ _ _
theorem skp (x : Reg) : Statement (.skp x) := packXNN_fixed _ _ _
theorem sknp (x : Reg) : Statement (.sknp x) := packXNN_fixed _ _ _
theorem ldVDT (x : Reg) : Statement (.ldVDT x) := packXNN_fixed _ _ _
theorem ldVK (x : Reg) : Statement (.ldVK x) := packXNN_fixed _ _ _
theorem ldDTV (x : Reg) : Statement (.ldDTV x) := packXNN_fixed _ _ _
theorem ldSTV (x : Reg) : Statement (.ldSTV x) := packXNN_fixed _ _ _
theorem addI (x : Reg) : Statement (.addI x) := packXNN_fixed _ _ _
theorem ldF (x : Reg) : Statement (.ldF x) := packXNN_fixed _ _ _
theorem ldB (x : Reg) : Statement (.ldB x) := packXNN_fixed _ _ _
theorem ldMemV (x : Reg) : Statement (.ldMemV x) := packXNN_fixed _ _ _
theorem ldVMem (x : Reg) : Statement (.ldVMem x) := packXNN_fixed _ _ _

end Sys2Proof.Laws.FixedBits
end

