-- ==== Sys2Proof/Tests/Slice0.lean ====
section
/-!
SUPPORT. The model's own tests. Expected values come from spec/95_test_vectors.md (its table or scenario is named) or from
the encoding tables of spec/30_encoding.md R75. The witnesses at the end meet the hypotheses of the obligations.
-/

namespace Sys2Proof.Tests

open Sys2Proof Sys2Proof.Machine

/-! ## Helpers -/

/-- Reset with one instruction word at 0x200. -/
def at200 (w : Word) : State := State.reset.withFetchWord 16 w.toNat

/-- The state after one step, if there is one. -/
def after (s : State) : Option State :=
  match step s with
  | .next t => some t
  | .fault _ => none
  | .refused _ => none

/-- The state after the execute step of one instruction, if there is one. -/
def afterExec (i : Instr) (s : State) : Option State :=
  match exec i s with
  | .next t => some t
  | .fault _ => none
  | .refused _ => none

/-- The record of an error state. -/
def errorOf (s : State) : Option ErrorRecord :=
  match s.status with
  | .error r => some r
  | .running => none
  | .awaitKey _ _ => none
  | .halted _ => none

/-! ## Well-formedness (R76) -/

theorem test_sys_at_cls_is_ill_formed : (Instr.sys 0x0E0#12).wf = false := by decide

theorem test_sys_at_ret_is_ill_formed : (Instr.sys 0x0EE#12).wf = false := by decide

theorem test_sys_beside_them_is_well_formed :
    (Instr.sys 0x0E1#12).wf = true ∧ (Instr.sys 0x0ED#12).wf = true ∧ (Instr.sys 0x1E0#12).wf = true := by decide

/-! ## Decoding: every constructor from a word written out bit by bit from R74 and R75 -/

theorem test_decode_family_0 :
    decode 0b0000_0000_1110_0000#16 = .ok .cls
    ∧ decode 0b0000_0000_1110_1110#16 = .ok .ret
    ∧ decode 0b0000_0001_0010_0011#16 = .ok (.sys 0x123#12)
    ∧ decode 0b0000_1110_1110_1110#16 = .ok (.sys 0xEEE#12) := by decide

theorem test_decode_families_1_to_4 :
    decode 0b0001_0011_0000_0000#16 = .ok (.jp 0x300#12)
    ∧ decode 0b0010_1010_1011_1100#16 = .ok (.call 0xABC#12)
    ∧ decode 0b0011_0011_0001_0000#16 = .ok (.seVB 0x3#4 0x10#8)
    ∧ decode 0b0100_0011_0001_0000#16 = .ok (.sneVB 0x3#4 0x10#8) := by decide

theorem test_decode_families_5_to_7 :
    decode 0b0101_0001_0010_0000#16 = .ok (.seVV 0x1#4 0x2#4)
    ∧ decode 0b0101_0001_0010_0001#16 = .error .unsupportedOpcode
    ∧ decode 0b0110_1010_0000_0101#16 = .ok (.ldVB 0xA#4 0x05#8)
    ∧ decode 0b0111_1010_0000_0011#16 = .ok (.addVB 0xA#4 0x03#8) := by decide

theorem test_decode_family_8 :
    decode 0b1000_0001_0010_0000#16 = .ok (.ldVV 0x1#4 0x2#4)
    ∧ decode 0b1000_0001_0010_0001#16 = .ok (.orVV 0x1#4 0x2#4)
    ∧ decode 0b1000_0001_0010_0010#16 = .ok (.andVV 0x1#4 0x2#4)
    ∧ decode 0b1000_0001_0010_0011#16 = .ok (.xorVV 0x1#4 0x2#4)
    ∧ decode 0b1000_0001_0010_0100#16 = .ok (.addVV 0x1#4 0x2#4)
    ∧ decode 0b1000_0001_0010_0101#16 = .ok (.sub 0x1#4 0x2#4)
    ∧ decode 0b1000_0001_0010_0110#16 = .ok (.shr 0x1#4 0x2#4)
    ∧ decode 0b1000_0001_0010_0111#16 = .ok (.subn 0x1#4 0x2#4)
    ∧ decode 0b1000_0001_0010_1110#16 = .ok (.shl 0x1#4 0x2#4)
    ∧ decode 0b1000_0001_0010_1000#16 = .error .unsupportedOpcode
    ∧ decode 0b1000_0001_0010_1111#16 = .error .unsupportedOpcode := by decide

theorem test_decode_families_9_to_D :
    decode 0b1001_1010_1011_0000#16 = .ok (.sneVV 0xA#4 0xB#4)
    ∧ decode 0b1001_1010_1011_1111#16 = .error .unsupportedOpcode
    ∧ decode 0b1010_0011_0000_0001#16 = .ok (.ldI 0x301#12)
    ∧ decode 0b1011_0001_0010_0011#16 = .ok (.jpV0 0x123#12)
    ∧ decode 0b1100_0100_0000_1111#16 = .ok (.rnd 0x4#4 0x0F#8)
    ∧ decode 0b1101_0010_0011_1111#16 = .ok (.drw 0x2#4 0x3#4 0xF#4) := by decide

theorem test_decode_family_E :
    decode 0b1110_0001_1001_1110#16 = .ok (.skp 0x1#4)
    ∧ decode 0b1110_0001_1010_0001#16 = .ok (.sknp 0x1#4)
    ∧ decode 0b1110_0001_1001_1111#16 = .error .unsupportedOpcode := by decide

theorem test_decode_family_F :
    decode 0b1111_0011_0000_0111#16 = .ok (.ldVDT 0x3#4)
    ∧ decode 0b1111_0010_0000_1010#16 = .ok (.ldVK 0x2#4)
    ∧ decode 0b1111_0000_0001_0101#16 = .ok (.ldDTV 0x0#4)
    ∧ decode 0b1111_0000_0001_1000#16 = .ok (.ldSTV 0x0#4)
    ∧ decode 0b1111_0010_0001_1110#16 = .ok (.addI 0x2#4)
    ∧ decode 0b1111_1010_0010_1001#16 = .ok (.ldF 0xA#4)
    ∧ decode 0b1111_0101_0011_0011#16 = .ok (.ldB 0x5#4)
    ∧ decode 0b1111_0010_0101_0101#16 = .ok (.ldMemV 0x2#4)
    ∧ decode 0b1111_0001_0110_0101#16 = .ok (.ldVMem 0x1#4)
    ∧ decode 0b1111_0001_0110_0110#16 = .error .unsupportedOpcode := by decide

theorem test_decode_bytes_big_endian :
    decodeBytes [0x6A#8, 0x05#8, 0xFF#8] = .ok (.ldVB 0xA#4 0x05#8, [0xFF#8])
    ∧ decodeBytes [0x6A#8] = .error .truncated := by decide

theorem test_table_word :
    decodeTableWord 16 0xD23F = some (.drw 0x2#4 0x3#4 0xF#4)
    ∧ decodeTableWord 16 0x5121 = none := by decide

/-! ## Control flow (vectors 2.3) -/

theorem test_ret_pops :
    (after ((at200 0x00EE#16).setStack [0x202#16])).map (fun t => (t.pc, t.stack)) = some (0x202#16, []) := by decide

theorem test_ret_on_empty_stack_raises :
    (after (at200 0x00EE#16)).map (fun t => (errorOf t, t.pc))
      = some (some { code := .stackUnderflow, addr := 0x200#16, word := some 0x00EE#16 }, 0x202#16) := by decide

theorem test_sys_is_a_no_op :
    (after (at200 0x0123#16)).map (fun t => (t.pc, t.status, t.stack)) = some (0x202#16, .running, []) := by decide

theorem test_jp_to_an_odd_address : (after (at200 0x1201#16)).map State.pc = some 0x201#16 := by decide

theorem test_call_pushes_past_itself :
    (after (at200 0x2300#16)).map (fun t => (t.pc, t.stack)) = some (0x300#16, [0x202#16]) := by decide

theorem test_call_on_a_full_stack_raises :
    (after ((at200 0x2300#16).setStack (List.replicate 16 0x204#16))).map
        (fun t => (errorOf t, t.pc, t.stack.length))
      = some (some { code := .stackOverflow, addr := 0x200#16, word := some 0x2300#16 }, 0x202#16, 16) := by decide

theorem test_se_immediate :
    (after ((at200 0x3310#16).setReg 0x3#4 0x10#8)).map State.pc = some 0x204#16
    ∧ (after ((at200 0x3310#16).setReg 0x3#4 0x11#8)).map State.pc = some 0x202#16 := by decide

theorem test_sne_immediate :
    (after ((at200 0x4310#16).setReg 0x3#4 0x10#8)).map State.pc = some 0x202#16
    ∧ (after ((at200 0x4310#16).setReg 0x3#4 0x11#8)).map State.pc = some 0x204#16 := by decide

theorem test_se_registers :
    (after ((at200 0x5010#16).setReg 0x1#4 1#8)).map State.pc = some 0x202#16
    ∧ (after (at200 0x5110#16)).map State.pc = some 0x204#16 := by decide

theorem test_sne_registers :
    (after ((at200 0x9120#16).setReg 0x1#4 1#8)).map State.pc = some 0x204#16
    ∧ (after (at200 0x9110#16)).map State.pc = some 0x202#16 := by decide

theorem test_jp_v0_past_the_top :
    (after ((at200 0xBFFF#16).setReg 0x0#4 0xFF#8)).map State.pc = some 0x10FE#16 := by decide

/-! ## ALU (vectors 2.4) -/

theorem test_ld_immediate_to_vf : (after (at200 0x6F12#16)).map (·.reg Reg.vf) = some 0x12#8 := by decide

theorem test_add_immediate_sets_no_flag :
    (after ((at200 0x7A01#16).setReg 0xA#4 0xFF#8)).map (fun t => (t.reg 0xA#4, t.reg Reg.vf))
      = some (0x00#8, 0x00#8) := by decide

theorem test_ld_register :
    (after ((at200 0x8120#16).setReg 0x2#4 0x33#8)).map (·.reg 0x1#4) = some 0x33#8 := by decide

theorem test_or_keeps_vf :
    (after ((((at200 0x8121#16).setReg 0x1#4 0xF0#8).setReg 0x2#4 0x0F#8).setReg Reg.vf 0x55#8)).map
        (fun t => (t.reg 0x1#4, t.reg Reg.vf))
      = some (0xFF#8, 0x55#8) := by decide

theorem test_and :
    (after (((at200 0x8122#16).setReg 0x1#4 0xF0#8).setReg 0x2#4 0x3C#8)).map (·.reg 0x1#4) = some 0x30#8 := by decide

theorem test_xor :
    (after (((at200 0x8123#16).setReg 0x1#4 0xF0#8).setReg 0x2#4 0x3C#8)).map (·.reg 0x1#4) = some 0xCC#8 := by decide

theorem test_add_carries :
    (after (((at200 0x8124#16).setReg 0x1#4 0xC8#8).setReg 0x2#4 0x64#8)).map
        (fun t => (t.reg 0x1#4, t.reg Reg.vf))
      = some (0x2C#8, 1#8) := by decide

theorem test_add_to_vf_leaves_the_carry :
    (after (((at200 0x8F14#16).setReg Reg.vf 0x10#8).setReg 0x1#4 0x20#8)).map (·.reg Reg.vf) = some 0#8 := by decide

theorem test_sub_of_equal_clears_vf :
    (after (((at200 0x8125#16).setReg 0x1#4 5#8).setReg 0x2#4 5#8)).map (fun t => (t.reg 0x1#4, t.reg Reg.vf))
      = some (0#8, 0#8) := by decide

theorem test_sub_wraps :
    (after (((at200 0x8125#16).setReg 0x1#4 3#8).setReg 0x2#4 5#8)).map (fun t => (t.reg 0x1#4, t.reg Reg.vf))
      = some (0xFE#8, 0#8) := by decide

theorem test_shr_ignores_vy :
    (after (((at200 0x8126#16).setReg 0x1#4 0x80#8).setReg 0x2#4 0xFF#8)).map
        (fun t => (t.reg 0x1#4, t.reg Reg.vf))
      = some (0x40#8, 0#8) := by decide

theorem test_shr_shifts_bit_0_out :
    (after ((at200 0x8106#16).setReg 0x1#4 5#8)).map (fun t => (t.reg 0x1#4, t.reg Reg.vf))
      = some (2#8, 1#8) := by decide

theorem test_subn_is_reversed :
    (after (((at200 0x8127#16).setReg 0x1#4 3#8).setReg 0x2#4 5#8)).map (fun t => (t.reg 0x1#4, t.reg Reg.vf))
      = some (2#8, 1#8) := by decide

theorem test_shl_shifts_bit_7_out :
    (after ((at200 0x810E#16).setReg 0x1#4 0x81#8)).map (fun t => (t.reg 0x1#4, t.reg Reg.vf))
      = some (2#8, 1#8) := by decide

theorem test_shl_of_vf : (after ((at200 0x8F0E#16).setReg Reg.vf 0x80#8)).map (·.reg Reg.vf) = some 1#8 := by decide

/-- The draw is free; a mask of 0 leaves 0 whatever it is. -/
theorem test_rnd_under_a_zero_mask :
    (afterExec (.rnd 0x4#4 0x00#8) (State.reset.setReg 0x4#4 0x77#8)).map (·.reg 0x4#4) = some 0#8 := by
  simp [afterExec, exec, execRnd]

/-! ## Index and memory (vectors 2.5) -/

theorem test_ld_i : (after (at200 0xA300#16)).map State.i = some 0x300#16 := by decide

theorem test_add_i_wraps_at_16_bits :
    (after (((at200 0xF21E#16).setI 0xFFFF#16).setReg 0x2#4 1#8)).map State.i = some 0#16
    ∧ (after (((at200 0xF21E#16).setI 0x0FFF#16).setReg 0x2#4 1#8)).map (fun t => (t.i, t.reg Reg.vf))
      = some (0x1000#16, 0#8) := by decide

theorem test_ld_f_is_not_masked :
    (after ((at200 0xFA29#16).setReg 0xA#4 0x0A#8)).map State.i = some 0x32#16
    ∧ (after ((at200 0xFA29#16).setReg 0xA#4 0xFF#8)).map State.i = some 0x4FB#16 := by decide

theorem test_bcd :
    (after (((at200 0xF533#16).setReg 0x5#4 0x7B#8).setI 0x300#16)).map
        (fun t => (t.mem.readBytes 0x300 3, t.i))
      = some ([1#8, 2#8, 3#8], 0x300#16) := by decide

theorem test_bcd_past_the_top :
    (after ((at200 0xF533#16).setI 0xFFE#16)).map (fun t => (errorOf t, t.pc, t.mem.readBytes 0xFFE 2))
      = some (some { code := .addressOutOfRange, addr := 0x200#16, word := some 0xF533#16 }, 0x202#16,
          [0#8, 0#8]) := by decide

theorem test_block_store_at_the_top :
    (after (((at200 0xF055#16).setReg 0x0#4 0xAB#8).setI 0xFFF#16)).map (fun t => (t.mem.read 0xFFF, t.i))
      = some (0xAB#8, 0xFFF#16)
    ∧ (after ((at200 0xF155#16).setI 0xFFF#16)).map (fun t => (errorOf t).map ErrorRecord.code)
      = some (some .addressOutOfRange) := by decide

theorem test_block_store :
    (after (((((at200 0xF255#16).setReg 0x0#4 1#8).setReg 0x1#4 2#8).setReg 0x2#4 3#8).setI 0x400#16)).map
        (fun t => (t.mem.readBytes 0x400 4, t.i))
      = some ([1#8, 2#8, 3#8, 0#8], 0x400#16) := by decide

theorem test_block_load :
    (after ((at200 0xF165#16).setI 0x005#16)).map (fun t => (t.reg 0x0#4, t.reg 0x1#4, t.reg 0x2#4, t.i))
      = some (0x20#8, 0x60#8, 0#8, 0x005#16) := by decide

theorem test_block_load_past_the_top :
    (after ((at200 0xFF65#16).setI 0xFF1#16)).map (fun t => (errorOf t).map ErrorRecord.code)
      = some (some .addressOutOfRange) := by decide

/-! ## Display (vectors 2.6) -/

theorem test_cls :
    (after ((at200 0x00E0#16).setFb (fbWrite fbBlank 5 3 0xAA#8))).map (fun t => (fbRead t.fb 5 3, t.pc))
      = some (0#8, 0x202#16) := by decide

/-- Glyph 0 drawn at the top left, then drawn again. -/
theorem test_drw_twice :
    (after (at200 0xD015#16)).map (fun t => (fbRead t.fb 0 0, fbRead t.fb 1 0, fbRead t.fb 5 0, t.reg Reg.vf))
      = some (0xF0#8, 0x90#8, 0#8, 0#8)
    ∧ ((afterExec (.drw 0x0#4 0x1#4 0x5#4) State.reset).bind (afterExec (.drw 0x0#4 0x1#4 0x5#4))).map
        (fun t => (fbRead t.fb 0 0, t.reg Reg.vf)) = some (0#8, 1#8) := by decide

/-- A sprite byte 0xFF in the bottom right corner wraps to the left edge, and its second row to the top. -/
theorem test_drw_wraps :
    (afterExec (.drw 0x2#4 0x3#4 0x2#4)
        ((((State.reset.setMem (Memory.writeBytes [] 0x300 [0xFF#8, 0x81#8])).setI 0x300#16).setReg 0x2#4 60#8).setReg
          0x3#4 31#8)).map
        (fun t => (fbRead t.fb 31 7, fbRead t.fb 31 0, fbRead t.fb 0 7, fbRead t.fb 0 0, t.reg Reg.vf))
      = some (0x0F#8, 0xF0#8, 0x08#8, 0x10#8, 0#8) := by decide

/-! ## Keys and timers (vectors 2.7) -/

theorem test_skp :
    (after (((at200 0xE19E#16).setReg 0x1#4 5#8).answerKey (.key 5#4))).map State.pc = some 0x204#16
    ∧ (after (((at200 0xE19E#16).setReg 0x1#4 0x15#8).answerKey (.key 5#4))).map State.pc = some 0x202#16 := by decide

theorem test_skp_cancelled :
    (after (((at200 0xE19E#16).setReg 0x1#4 5#8).answerKey .cancel)).map (fun t => (errorOf t, t.pc))
      = some (some { code := .keyWaitCancelled, addr := 0x200#16, word := some 0xE19E#16 }, 0x202#16) := by decide

theorem test_sknp :
    (after (((at200 0xE1A1#16).setReg 0x1#4 5#8).answerKey (.key 7#4))).map State.pc = some 0x204#16
    ∧ (after (((at200 0xE1A1#16).setReg 0x1#4 0x15#8).answerKey (.key 0#4))).map State.pc = some 0x204#16 := by decide

theorem test_ld_key : (after ((at200 0xF20A#16).answerKey (.key 0xC#4))).map (·.reg 0x2#4) = some 0x0C#8 := by decide

/-- The wait does not count the timers: DT = 3 before the tick is 2 while it waits and 2 when it ends. -/
theorem test_key_wait_keeps_dt :
    (after ((at200 0xF20A#16).setDt 3#8)).map (fun t => (t.status, t.dt, t.pc))
      = some (.awaitKey .load 0x2#4, 2#8, 0x202#16)
    ∧ (((after ((at200 0xF20A#16).setDt 3#8)).map (·.answerKey (.key 1#4))).bind after).map
        (fun t => (t.reg 0x2#4, t.dt, t.status)) = some (1#8, 2#8, .running) := by decide

theorem test_ld_from_dt :
    (after ((at200 0xF307#16).setDt 0x10#8)).map (fun t => (t.reg 0x3#4, t.dt)) = some (0x0F#8, 0x0F#8)
    ∧ (after (at200 0xF307#16)).map (fun t => (t.reg 0x3#4, t.dt)) = some (0#8, 0#8) := by decide

theorem test_ld_to_dt : (after ((at200 0xF015#16).setReg 0x0#4 0x3C#8)).map State.dt = some 0x3C#8 := by decide

theorem test_ld_to_st : (after ((at200 0xF018#16).setReg 0x0#4 2#8)).map State.st = some 2#8 := by decide

/-! ## The tick (vectors 2.8) -/

theorem test_fetch_at_the_last_word :
    (after ((State.reset.setMem (Memory.writeBytes [] 0xFFE [0x60#8, 0x2A#8])).setPc 0xFFE#16)).map
        (fun t => (t.reg 0x0#4, t.pc)) = some (0x2A#8, 0x1000#16) := by decide

theorem test_halt_past_the_last_word :
    (after ((State.reset.setPc 0xFFF#16).setDt 3#8)).map (fun t => (t.status, t.dt, t.pc))
      = some (.halted { code := .programCounterOutOfRange, addr := 0xFFF#16, word := none }, 2#8, 0xFFF#16) := by
  decide

theorem test_unsupported_word_raises :
    (after ((at200 0xE000#16).setDt 1#8)).map (fun t => (errorOf t, t.pc, t.dt))
      = some (some { code := .unsupportedOpcode, addr := 0x200#16, word := some 0xE000#16 }, 0x202#16, 0#8) := by
  decide

theorem test_timers_count_in_every_tick :
    (after (((at200 0x0000#16).setDt 5#8).setSt 1#8)).map (fun t => (t.dt, t.st, t.pc))
      = some (4#8, 0#8, 0x202#16) := by decide

/-! ## Assembly text (vectors 2.2) -/

theorem test_assemble_forms :
    assemble ['L', 'D', ' ', 'B', ',', ' ', 'V', 'B'] = .ok [0xFB#8, 0x33#8]
    ∧ assemble ['A', 'D', 'D', ' ', 'I', ',', ' ', 'V', 'F'] = .ok [0xFF#8, 0x1E#8]
    ∧ assemble ['J', 'P', ' ', 'V', '0', ',', ' ', '2'] = .ok [0xB0#8, 0x02#8]
    ∧ assemble ['J', 'P', ' ', '1', '0', '0', '0'] = .error (.malformed 1)
    ∧ assemble ['D', 'R', 'W', ' ', 'V', '1', ',', ' ', 'V', '2', ',', ' ', '1', '0'] = .error (.malformed 1) := by
  decide

theorem test_disassemble_forms :
    disassemble 0x3A0C#16 = .ok ['S', 'E', ' ', 'V', 'A', ',', ' ', '#', 'C']
    ∧ disassemble 0x1000#16 = .ok ['J', 'P', ' ', '0']
    ∧ disassemble 0xF255#16 = .ok ['L', 'D', ' ', '[', 'I', ']', ',', ' ', 'V', '2']
    ∧ disassemble 0x8106#16 = .ok ['S', 'H', 'R', ' ', 'V', '1', ',', ' ', 'V', '0'] := by decide

theorem test_disassemble_buffer :
    disassembleBytes [0x00#8, 0xE0#8, 0x51#8] = [.ok ['C', 'L', 'S'], .error .truncated] := by decide

/-! ## Witnesses: states and operands that meet the hypotheses of the obligations -/

/-- A running machine that has just fetched at 0x200, for the execute step. -/
def executing : State := State.reset.setPc 0x202#16

theorem witness_DecodeAndEncodeAgree :
    (Instr.sys 0xFFF#12).wf = true ∧ (Instr.drw 0xF#4 0xF#4 0xF#4).wf = true
    ∧ decode 0xDFFF#16 = .ok (.drw 0xF#4 0xF#4 0xF#4) := by decide

theorem witness_UnsupportedWordsAreExact :
    unsupportedRow 0xFFFF#16 = true ∧ unsupportedRow 0x00E0#16 = false := by decide

theorem witness_StepRunsTheDecodedInstruction :
    (State.reset.setPc 0xFFE#16).status = .running ∧ (State.reset.setPc 0xFFE#16).pc.toNat ≤ 0xFFE
    ∧ decode (wordOfBytes ((State.reset.setPc 0xFFE#16).mem.read 0xFFE) ((State.reset.setPc 0xFFE#16).mem.read 0xFFF))
      = .ok (.sys 0x000#12) := by decide

theorem witness_TickPastTheTopHalts :
    (State.reset.setPc 0xFFF#16).status = .running ∧ 0xFFE < (State.reset.setPc 0xFFF#16).pc.toNat := by decide

theorem witness_UnsupportedWordRaises :
    (at200 0x5121#16).status = .running ∧ (at200 0x5121#16).pc.toNat ≤ 0xFFE
    ∧ unsupportedRow (fetchWord (at200 0x5121#16)) = true := by decide

theorem witness_EveryLiveStateSteps :
    (State.reset.setStatus (.awaitKey .skp 0x0#4)).status.terminal = false
    ∧ (State.reset.setStatus
        (.halted { code := .programCounterOutOfRange, addr := 0xFFF#16, word := none })).status.terminal = true := by
  decide

/-- A state that a run need not reach: a full stack, PC past the top, a byte listed. -/
def oddState : State := { State.reset with stack := List.replicate 16 0x1000#16, pc := 0x10FE#16, mem := [(0x200, 1#8)] }

theorem witness_StepKeepsTheInvariant : oddState.Inv ∧ ∃ t, step oddState = .next t := by
  refine ⟨⟨by decide, by decide, fun w hw => ?_, by decide, trivial⟩, haltOutOfRange (tickTimers oddState), ?_⟩
  · rw [List.eq_of_mem_replicate hw]; decide
  have h : pcOutOfRange (tickTimers oddState) = true := by decide
  rw [step, transition, show oddState.status = .running from rfl]
  simp only [tick, runCycle, h]

theorem witness_ErrorsArePrecise :
    (at200 0x00EE#16).status = .running
    ∧ ((after (at200 0x00EE#16)).bind errorOf).isSome = true
    ∧ ((executing.setStatus (.awaitKey .load 0x2#4)).answerKey .cancel).status = .awaitKey .load 0x2#4
    ∧ ((after ((executing.setStatus (.awaitKey .load 0x2#4)).answerKey .cancel)).bind errorOf).isSome = true := by
  decide

theorem witness_OnlyListedErrorsAreRaised :
    executing.status = .running
    ∧ ((afterExec (.ldVMem 0xF#4) (executing.setI 0xFF1#16)).bind errorOf).isSome = true := by decide

theorem witness_EveryTickCountsTheTimers :
    (∃ t, step (at200 0xF018#16) = .next t) ∧ fetchWord (at200 0xF018#16) = 0xF018#16
    ∧ (∃ t, step (State.reset.setPc 0xFFF#16) = .next t) ∧ (State.reset.setPc 0xFFF#16).status = .running :=
  ⟨⟨_, rfl⟩, by decide, ⟨_, rfl⟩, rfl⟩

theorem witness_KeyWaitHoldsTheState :
    (executing.setStatus (.awaitKey .sknp 0xF#4)).status = .awaitKey .sknp 0xF#4
    ∧ (executing.setStatus (.awaitKey .sknp 0xF#4)).keyAnswers = [] := by decide

theorem witness_WaitedTickEqualsAtomicTick :
    executing.status = .running ∧ executing.keyAnswers = []
    ∧ ∃ t, exec (KeyOp.load.instr 0x2#4) executing = .next t := ⟨rfl, rfl, _, rfl⟩

theorem witness_OnlyListedRegistersAreWritten :
    writesReg (.ldVMem 0x3#4) 0x4#4 = false ∧ ∃ t, exec (.ldVMem 0x3#4) executing = .next t := ⟨by decide, _, rfl⟩

theorem witness_UnlistedRegistersAreNotRead :
    readsReg (.shl 0x1#4 0x2#4) 0x2#4 = false ∧ ∃ t, exec (.shl 0x1#4 0x2#4) executing = .next t :=
  ⟨by decide, _, rfl⟩

theorem witness_OnlyListedPartsAreWritten : ∃ t, exec (.call 0x300#12) executing = .next t := ⟨_, rfl⟩

theorem witness_OnlyListedPcWrites :
    ∃ t, exec .ret (executing.setStack [0x1000#16]) = .next t := ⟨_, rfl⟩

theorem witness_MemoryReadsTheLatestWrite : 0xFFF ≤ 0xFFF ∧ (0xFFE : Nat) ≠ 0xFFF := by decide

theorem witness_CanonicalMemoriesAreEqual :
    (Memory.write [] 0xFFF 1#8).wf = true ∧ (Memory.write (Memory.write [] 0xFFF 2#8) 0xFFF 1#8).wf = true
    ∧ ∀ a, a ≤ 0xFFF →
      (Memory.write [] 0xFFF 1#8).read a = (Memory.write (Memory.write [] 0xFFF 2#8) 0xFFF 1#8).read a :=
  ⟨by decide, by decide, fun a _ => by
    rw [Memory.read_write, Memory.read_write, Memory.read_write]
    split <;> rfl⟩

theorem witness_StoredCodeIsFetched :
    (0x0#4 : Reg).toNat + 1 ≤ (0x1#4 : Reg).toNat ∧ (executing.setI 0x202#16).i.toNat + (0x1#4 : Reg).toNat ≤ 0xFFF
    ∧ (executing.setI 0x202#16).pc.toNat = dataAddr (executing.setI 0x202#16) (0x0#4 : Reg).toNat := by decide

theorem witness_BootLoadsImages :
    (List.replicate 512 0xAA#8).length ≤ 512 ∧ (List.replicate 3584 0xAA#8).length ≤ 3584
    ∧ 512 < (List.replicate 513 0xAA#8).length ∧ 3584 < (List.replicate 3585 0xAA#8).length := by
  simp only [List.length_replicate]
  decide

theorem witness_CallPushesTheReturnAddress :
    (executing.setStack (List.replicate 15 0x202#16)).stack.length < 16
    ∧ 16 ≤ (executing.setStack (List.replicate 16 0x202#16)).stack.length := by decide

theorem witness_RetPopsTheReturnAddress :
    (executing.setStack [0x204#16, 0x206#16]).stack = 0x204#16 :: [0x206#16] := by decide

theorem witness_RetOnTheEmptyStack :
    executing.stack = [] ∧ executing.underflowPolicy = .fault
    ∧ State.stack { executing with underflowPolicy := .noop } = []
    ∧ State.underflowPolicy { executing with underflowPolicy := .noop } = .noop := by decide

theorem witness_SysHasNoEffect :
    op 0x0000#16 = 0x0#4 ∧ 0x0000#16 ≠ 0x00E0#16 ∧ 0x0000#16 ≠ 0x00EE#16 := by decide

theorem witness_SkipsOnTwoRegisters :
    op 0x5121#16 = 0x5#4 ∧ fieldN 0x5121#16 ≠ 0x0#4 ∧ op 0x9ABF#16 = 0x9#4 ∧ fieldN 0x9ABF#16 ≠ 0x0#4 := by decide

/-- Words at the edges of their rows, one for each mask: the premise of `DecodesAs`. -/
theorem witness_DecodesAs :
    0x1FFF#16 &&& 0xF000#16 = 0x1000#16 ∧ 0x8FF7#16 &&& 0xF00F#16 = 0x8007#16
    ∧ 0xFF65#16 &&& 0xF0FF#16 = 0xF065#16 := by decide

theorem witness_AddSetsTheCarry : (0xE#4 : Reg) ≠ Reg.vf := by decide

theorem witness_SubtractionsSetNoBorrow : (0x0#4 : Reg) ≠ Reg.vf := by decide

theorem witness_ShiftsSetTheShiftedOutBit : (0x1#4 : Reg) ≠ Reg.vf := by decide

theorem witness_BcdStoresThreeDigits : dataAddr (executing.setI 0xFFD#16) 2 ≤ 0xFFF := by decide

theorem witness_BlockStoreWritesRegisters :
    dataAddr (executing.setI 0xFF0#16) (0xF#4 : Reg).toNat ≤ 0xFFF ∧ (0xF#4 : Reg).toNat ≤ (0xF#4 : Reg).toNat := by
  decide

theorem witness_BlockLoadReadsRegisters :
    dataAddr (executing.setI 0xFFF#16) (0x0#4 : Reg).toNat ≤ 0xFFF ∧ (0x0#4 : Reg).toNat ≤ (0x0#4 : Reg).toNat
    ∧ (0x0#4 : Reg).toNat < (0x1#4 : Reg).toNat := by decide

theorem witness_DataAccessOutOfRangeRaises :
    0xFFF < (executing.setI 0xFFE#16).i.toNat + 2
    ∧ 0xFFF < (executing.setI 0xFFF#16).i.toNat + (0x1#4 : Reg).toNat
    ∧ 0xFFF < (executing.setI 0x1000#16).i.toNat + (0x0#4 : Reg).toNat
    ∧ 0 < (0x2#4 : Nibble).toNat ∧ 0xFFF < (executing.setI 0xFFF#16).i.toNat + (0x2#4 : Nibble).toNat - 1 := by decide

theorem witness_DrawIsPixelwiseXor :
    (executing.setI 0xFF1#16).i.toNat + (0xF#4 : Nibble).toNat ≤ 0x1000
    ∧ (executing.setI 0xFFFF#16).i.toNat + (0x0#4 : Nibble).toNat > 0x1000 := by decide

theorem witness_SecondDrawErasesTheFirst :
    (0x0#4 : Reg) ≠ Reg.vf ∧ (0x1#4 : Reg) ≠ Reg.vf ∧ State.reset.i.toNat + (0x5#4 : Nibble).toNat ≤ 0x1000
    ∧ State.reset.fb = fbBlank
    ∧ (afterExec (.drw 0x0#4 0x1#4 0x5#4) State.reset).map (fun t => decide (t.fb ≠ fbBlank)) = some true := by decide

theorem witness_KeySkips_and_KeyIsLoaded :
    (executing.answerKey (.key 0xF#4)).keyAnswers = .key 0xF#4 :: [] := by decide

theorem witness_CancelledKeyWaitRaises : (executing.answerKey .cancel).keyAnswers = .cancel :: [] := by decide

theorem witness_KeyRequestOpens : executing.keyAnswers = [] := by decide

theorem witness_TimerTransfers :
    (at200 0xF307#16).status = .running ∧ (at200 0xF307#16).pc.toNat ≤ 0xFFE
    ∧ decode (fetchWord (at200 0xF307#16)) = .ok (.ldVDT 0x3#4) := by decide

/-- The same at the last address that leaves room for both instructions. -/
theorem witness_TimerTransfers_in_a_row :
    (0xFFC#16 : Word).toNat ≤ 0xFFC
    ∧ decode (fetchWord ((State.reset.setPc 0xFFC#16).setMem
        (Memory.writeBytes [] 0xFFC [0xF0#8, 0x15#8, 0xF1#8, 0x07#8]))) = .ok (.ldDTV 0x0#4)
    ∧ decode (Memory.readWord (Memory.writeBytes [] 0xFFC [0xF0#8, 0x15#8, 0xF1#8, 0x07#8]) 0xFFE)
      = .ok (.ldVDT 0x1#4) := by decide

theorem witness_TextRoundTrip :
    '\n' ∉ ['c', 'l', 's', ','] ∧ lineTokens ['c', 'l', 's', ','] ≠ [] ∧ assemble ['c', 'l', 's', ','] = .ok [0x00#8, 0xE0#8]
    ∧ disassemble 0x00E0#16 = .ok ['C', 'L', 'S'] := by decide

theorem witness_AssemblerNumbersLines :
    assemble ['C', 'L', 'S', '\n', '\n', 'F', 'O', 'O'] = .error (.malformed 3)
    ∧ assemble ['\n'] = .ok [] := by decide

end Sys2Proof.Tests
end

/-! The family of the state: what one instruction and one step can do, the frames of their effects, the invariant, and
the state a reset gives. -/

namespace Sys2Proof.Machine

/-! ## What one instruction can do -/

/-- The instruction opens its key request: the status alone changes. -/
def Waits (i : Instr) (s t : State) : Prop :=
  ∃ kind x, i = kind.instr x ∧ t = s.setStatus (.awaitKey kind x)

/-- The instruction raises an error of its row of R192: beside the status, only the queue of answers may differ. -/
def Raises (i : Instr) (s t : State) : Prop :=
  ∃ code answers, canRaise i code = true ∧ t = raiseError code (encode i) (s.setKeyAnswers answers)

/-- What an instruction does when it raises nothing and its key request, if it makes one, is answered with a key.
An instruction that can neither raise nor wait has one outcome, the model's (the last row). -/
def Acts : Instr → State → State → Prop
  | .ret, s, t => (∃ w rest, s.stack = w :: rest ∧ t = (s.setStack rest).setPc w)
      ∨ (s.stack = [] ∧ s.underflowPolicy = .noop ∧ t = s)
  | .call nnn, s, t => s.stack.length < stackDepth ∧ t = (s.setStack (s.pc :: s.stack)).setPc nnn.toWord
  | .drw x y n, s, t =>
    drawResult s (blit s.fb (s.reg x) (s.reg y) (s.mem.readBytes (dataAddr s 0) n.toNat)) = .next t
  | .ldB x, s, t => t = s.setMem (s.mem.writeBytes (dataAddr s 0) (decimalDigits (s.reg x)))
  | .ldMemV x, s, t => t = s.setMem (s.mem.writeBytes (dataAddr s 0) (regBlock s x))
  | .ldVMem x, s, t => t = s.setV (loadedBlock s x)
  | .skp x, s, t => ∃ k rest, s.keyAnswers = .key k :: rest
      ∧ t = skipIf (k.toByte == s.reg x) ((s.setKeyAnswers rest).setStatus .running)
  | .sknp x, s, t => ∃ k rest, s.keyAnswers = .key k :: rest
      ∧ t = skipIf (k.toByte != s.reg x) ((s.setKeyAnswers rest).setStatus .running)
  | .ldVK x, s, t => ∃ k rest, s.keyAnswers = .key k :: rest
      ∧ t = ((s.setKeyAnswers rest).setStatus .running).setReg x k.toByte
  | i, s, t => exec i s = .next t

theorem checkedAccess_outcome {s t : State} {n : Nat} {i : Instr} {effect : Result}
    (hc : 0 < n → canRaise i .addressOutOfRange = true) (h : checkedAccess s n i effect = .next t) :
    Raises i s t ∨ effect = .next t := by
  rcases checkedAccess_cases s n i effect with ⟨hn, _, he⟩ | ⟨_, he⟩
  · cases he.symm.trans h
    exact .inl ⟨_, s.keyAnswers, hc hn, rfl⟩
  · exact .inr (he.symm.trans h)

theorem keyWait_outcome {kind : KeyOp} {x : Reg} {f : Nibble → State → State} {s t : State}
    (h : keyWait kind x f s = .next t) :
    Waits (kind.instr x) s t ∨ Raises (kind.instr x) s t
      ∨ ∃ k rest, s.keyAnswers = .key k :: rest ∧ t = f k ((s.setKeyAnswers rest).setStatus .running) := by
  rcases keyWait_cases h with ⟨_, ht⟩ | ⟨k, rest, ha, ht⟩ | ⟨rest, _, ht⟩
  · exact .inl ⟨kind, x, rfl, ht⟩
  · exact .inr (.inr ⟨k, rest, ha, ht⟩)
  · exact .inr (.inl ⟨_, rest, by cases kind <;> rfl, ht⟩)

theorem execRet_outcome {s t : State} (h : execRet s = .next t) : Raises .ret s t ∨ Acts .ret s t := by
  rcases popWord_cases s with ⟨hs, hp⟩ | ⟨w, rest, hs, hp⟩
  · cases hu : s.underflowPolicy <;> simp only [execRet, hp, hu] at h <;> cases h
    · exact .inl ⟨_, s.keyAnswers, rfl, rfl⟩
    · exact .inr (.inr ⟨hs, hu, rfl⟩)
  · simp only [execRet, hp] at h
    cases h
    exact .inr (.inl ⟨w, rest, hs, rfl⟩)

theorem execCall_outcome {nnn : Addr} {s t : State} (h : execCall nnn s = .next t) :
    Raises (.call nnn) s t ∨ Acts (.call nnn) s t := by
  rcases pushWord_cases s.pc s with ⟨hl, hp⟩ | ⟨_, hp⟩ <;> simp only [execCall, hp] at h <;> cases h
  · exact .inr ⟨hl, rfl⟩
  · exact .inl ⟨_, s.keyAnswers, rfl, rfl⟩

/-- Everything the execute step of an instruction can do: open a key request, raise an error, or act. -/
theorem exec_cases {i : Instr} {s t : State} (h : exec i s = .next t) :
    Waits i s t ∨ Raises i s t ∨ Acts i s t := by
  cases i with
  | ret => exact .inr (execRet_outcome h)
  | call nnn => exact .inr (execCall_outcome h)
  | drw x y n =>
    refine .inr (checkedAccess_outcome (fun hn => ?_) h)
    have : n ≠ 0#4 := fun h0 => by simp [h0] at hn
    simpa [canRaise] using this
  | ldB x | ldMemV x | ldVMem x =>
    refine .inr ((checkedAccess_outcome (fun _ => rfl) h).imp_right fun ht => ?_)
    cases ht
    rfl
  | skp x | sknp x | ldVK x =>
    simp only [exec, execSkp, execSknp, execLdVK] at h
    exact keyWait_outcome h
  | _ => exact .inr (.inr h)

/-! ## Frames of the state's updates -/

section Frames

variable {l : List Part} {s u : State}

/-- A frame, part by part. -/
theorem keepsBut_iff {t : State} : KeepsBut l s t ↔
    (.pc ∉ l → t.pc = s.pc) ∧ (.index ∉ l → t.i = s.i) ∧ (.delay ∉ l → t.dt = s.dt) ∧ (.sound ∉ l → t.st = s.st)
    ∧ (.stack ∉ l → t.stack = s.stack) ∧ (.memory ∉ l → ∀ a, t.mem.read a = s.mem.read a)
    ∧ (.display ∉ l → t.fb = s.fb) ∧ (.status ∉ l → t.status = s.status)
    ∧ (.answers ∉ l → t.keyAnswers = s.keyAnswers) ∧ (.draws ∉ l → t.draws = s.draws)
    ∧ t.underflowPolicy = s.underflowPolicy := by
  constructor
  · rintro ⟨h, hu⟩
    exact ⟨h .pc, h .index, h .delay, h .sound, h .stack, h .memory, h .display, h .status, h .answers, h .draws, hu⟩
  · rintro ⟨h1, h2, h3, h4, h5, h6, h7, h8, h9, h10, hu⟩
    refine ⟨fun p => ?_, hu⟩
    cases p <;> assumption

@[simp] theorem keepsBut_refl : KeepsBut l s s := by simp [keepsBut_iff]

@[simp] theorem keepsBut_setReg (x : Reg) (b : Byte) : KeepsBut l s (u.setReg x b) ↔ KeepsBut l s u := by
  simp [keepsBut_iff]

@[simp] theorem keepsBut_setV (v : Vector Byte 16) : KeepsBut l s (u.setV v) ↔ KeepsBut l s u := by
  simp [keepsBut_iff]

@[simp] theorem keepsBut_setPc (w : Word) (h : .pc ∈ l) : KeepsBut l s (u.setPc w) ↔ KeepsBut l s u := by
  simp [keepsBut_iff, h]

@[simp] theorem keepsBut_setI (w : Word) (h : .index ∈ l) : KeepsBut l s (u.setI w) ↔ KeepsBut l s u := by
  simp [keepsBut_iff, h]

@[simp] theorem keepsBut_setDt (b : Byte) (h : .delay ∈ l) : KeepsBut l s (u.setDt b) ↔ KeepsBut l s u := by
  simp [keepsBut_iff, h]

@[simp] theorem keepsBut_setSt (b : Byte) (h : .sound ∈ l) : KeepsBut l s (u.setSt b) ↔ KeepsBut l s u := by
  simp [keepsBut_iff, h]

@[simp] theorem keepsBut_setStack (ws : List Word) (h : .stack ∈ l) :
    KeepsBut l s (u.setStack ws) ↔ KeepsBut l s u := by
  simp [keepsBut_iff, h]

@[simp] theorem keepsBut_setMem (m : Memory) (h : .memory ∈ l) : KeepsBut l s (u.setMem m) ↔ KeepsBut l s u := by
  simp [keepsBut_iff, h]

@[simp] theorem keepsBut_setFb (d : Display) (h : .display ∈ l) : KeepsBut l s (u.setFb d) ↔ KeepsBut l s u := by
  simp [keepsBut_iff, h]

@[simp] theorem keepsBut_setStatus (x : Status) (h : .status ∈ l) :
    KeepsBut l s (u.setStatus x) ↔ KeepsBut l s u := by
  simp [keepsBut_iff, h]

@[simp] theorem keepsBut_setKeyAnswers (as : List KeyAnswer) (h : .answers ∈ l) :
    KeepsBut l s (u.setKeyAnswers as) ↔ KeepsBut l s u := by
  simp [keepsBut_iff, h]

@[simp] theorem keepsBut_raiseError (c : ErrorCode) (w : Word) (h : .status ∈ l) :
    KeepsBut l s (raiseError c w u) ↔ KeepsBut l s u :=
  keepsBut_setStatus _ h

@[simp] theorem keepsBut_skipIf (c : Bool) (h : .pc ∈ l) : KeepsBut l s (skipIf c u) ↔ KeepsBut l s u := by
  cases c
  · exact .rfl
  · exact keepsBut_setPc _ h

@[simp] theorem keepsBut_writeWithFlag (x : Reg) (r : Byte) (c : Bool) :
    KeepsBut l s (writeWithFlag u x r c) ↔ KeepsBut l s u := by
  simp [writeWithFlag]

@[simp] theorem keepsBut_drawByte (h : .draws ∈ l) : KeepsBut l s (drawByte u).2 ↔ KeepsBut l s u := by
  simp [keepsBut_iff, h]

end Frames

/-- The parts an instruction that acts leaves alone: each update its effect is made of is of a part R25 to R57 list. -/
theorem acts_keepsBut {i : Instr} {s t : State} (h : Acts i s t) :
    KeepsBut (.status :: .answers :: writesParts i) s t := by
  cases i with
  | ret => rcases h with ⟨w, rest, _, rfl⟩ | ⟨_, _, rfl⟩ <;> simp [writesParts]
  | call nnn =>
    obtain ⟨_, rfl⟩ := h
    simp [writesParts]
  | skp x | sknp x | ldVK x =>
    obtain ⟨k, rest, _, rfl⟩ := h
    simp [writesParts]
  | _ =>
    cases h
    simp [writesParts]

/-- Settles O19: a wait and an error change the status and the answers, an effect its listed parts. -/
theorem onlyListedPartsAreWritten : Obligations.OnlyListedPartsAreWritten := by
  intro i s t h
  rcases exec_cases h with ⟨kind, x, _, rfl⟩ | ⟨code, answers, _, rfl⟩ | h
  · simp
  · simp
  · exact acts_keepsBut h

/-- An effect writes no register outside R22's column: none, one, one and VF, VF alone, or a block. -/
theorem acts_keepsRegs {i : Instr} {s t : State} {r : Reg} (h : Acts i s t) (hr : writesReg i r = false) :
    t.reg r = s.reg r := by
  cases i with
  | ret => rcases h with ⟨w, rest, _, rfl⟩ | ⟨_, _, rfl⟩ <;> rfl
  | call nnn =>
    obtain ⟨_, rfl⟩ := h
    rfl
  | skp x | sknp x =>
    obtain ⟨k, rest, _, rfl⟩ := h
    simp
  | ldVK x =>
    obtain ⟨k, rest, _, rfl⟩ := h
    exact State.reg_setReg_of_ne _ _ (ne_of_beq_false hr)
  | ldVMem x =>
    cases h
    rw [loadedBlock_reg, if_neg (of_decide_eq_false hr)]
  | ldVB x nn | addVB x nn | ldVV x y | orVV x y | andVV x y | xorVV x y | rnd x nn | ldVDT x =>
    cases h
    exact State.reg_setReg_of_ne _ _ (ne_of_beq_false hr)
  | addVV x y | sub x y | shr x y | subn x y | shl x y =>
    cases h
    obtain ⟨hx, hf⟩ : r ≠ x ∧ r ≠ Reg.vf := by simpa [writesReg] using hr
    rw [writeWithFlag_reg, if_neg hf, if_neg hx]
  | drw x y n =>
    cases h
    exact State.reg_setReg_of_ne _ _ (ne_of_beq_false hr)
  | _ =>
    cases h
    simp

/-- Settles O17: a wait and an error write no register, an effect those of R22's column. -/
theorem onlyListedRegistersAreWritten : Obligations.OnlyListedRegistersAreWritten := by
  intro i s t r h hr
  rcases exec_cases h with ⟨kind, x, _, rfl⟩ | ⟨code, answers, _, rfl⟩ | h
  · simp
  · simp
  · exact acts_keepsRegs h hr

theorem Addr.toWord_toNat (a : Addr) : a.toWord.toNat = a.toNat :=
  BitVec.toNat_setWidth_of_le (by decide)

theorem skipIf_pc_cases (c : Bool) (s : State) : (skipIf c s).pc = s.pc ∨ (skipIf c s).pc = s.pc + 2#16 := by
  cases c
  · exact .inl rfl
  · exact .inr rfl

/-- Settles O20: by the groups of R25, a skip, a jump or call, JP V0, RET; every other instruction keeps PC. -/
theorem onlyListedPcWrites : Obligations.OnlyListedPcWrites := by
  intro i s t h
  rcases exec_cases h with ⟨kind, x, _, rfl⟩ | ⟨code, answers, _, rfl⟩ | h
  · exact .inl rfl
  · exact .inl rfl
  cases i with
  | seVB x nn | sneVB x nn =>
    cases h
    exact (skipIf_pc_cases _ s).imp_right fun hp => .inl ⟨.inl ⟨x, nn, by simp⟩, hp⟩
  | seVV x y | sneVV x y =>
    cases h
    exact (skipIf_pc_cases _ s).imp_right fun hp => .inl ⟨.inr (.inl ⟨x, y, by simp⟩), hp⟩
  | skp x | sknp x =>
    obtain ⟨k, rest, _, rfl⟩ := h
    exact (skipIf_pc_cases _ _).imp_right fun hp => .inl ⟨.inr (.inr ⟨x, by simp⟩), hp⟩
  | jp nnn =>
    cases h
    exact .inr (.inr (.inl ⟨nnn, .inl rfl, Addr.toWord_toNat nnn⟩))
  | call nnn =>
    obtain ⟨_, rfl⟩ := h
    exact .inr (.inr (.inl ⟨nnn, .inr rfl, Addr.toWord_toNat nnn⟩))
  | jpV0 nnn =>
    cases h
    have hn := Addr.toWord_toNat nnn
    refine .inr (.inr (.inr (.inl ⟨nnn, rfl, ?_⟩)))
    simp only [State.setPc_pc, BitVec.toNat_add, BitVec.toNat_setWidth, hn]
    omega
  | ret =>
    rcases h with ⟨w, rest, hs, rfl⟩ | ⟨_, _, rfl⟩
    · exact .inr (.inr (.inr (.inr ⟨rfl, rest, hs⟩)))
    · exact .inl rfl
  | ldVK x =>
    obtain ⟨k, rest, _, rfl⟩ := h
    exact .inl rfl
  | _ =>
    cases h
    exact .inl rfl

/-! ## Decoding loses no bit (R87) -/

/-- The instruction of a word encodes to the word: each field it keeps, and the bits its row fixes. -/
theorem encode_of_decode {w : Word} {i : Instr} (h : decode w = .ok i) : encode i = w := by
  have hA {o : Nibble} (ho : op w = o) : packNNN o (fieldNNN w) = w := ho ▸ packNNN_fields w
  have hB {o : Nibble} (ho : op w = o) : packXNN o (fieldX w) (fieldNN w) = w := ho ▸ packXNN_fields w
  have hV {o n : Nibble} (ho : op w = o) (hn : fieldN w = n) : packXYN o (fieldX w) (fieldY w) n = w :=
    ho ▸ hn ▸ packXYN_fields w
  have hS {o : Nibble} {b : Byte} (ho : op w = o) (hb : fieldNN w = b) : packXNN o (fieldX w) b = w :=
    ho ▸ hb ▸ packXNN_fields w
  unfold decode at h
  split at h
  case h_1 ho =>
    unfold decodeFamily0 at h
    split_ifs at h with h1 h2 <;> cases h
    · exact h1.symm
    · exact h2.symm
    · exact hA ho
  case h_6 ho =>
    unfold decodeFamily5 at h
    split_ifs at h with hn
    cases h
    exact hV ho hn
  case h_9 ho =>
    unfold decodeFamily8 at h
    split at h <;> cases h <;> exact hV ho ‹_›
  case h_10 ho =>
    unfold decodeFamily9 at h
    split_ifs at h with hn
    cases h
    exact hV ho hn
  case h_14 ho => cases h; exact hV ho rfl
  case h_15 ho =>
    unfold decodeFamilyE at h
    split at h <;> cases h <;> exact hS ho ‹_›
  case h_16 ho =>
    unfold decodeFamilyF at h
    split at h <;> cases h <;> exact hS ho ‹_›
  case h_2 ho | h_3 ho | h_11 ho | h_12 ho => cases h; exact hA ho
  case h_4 ho | h_5 ho | h_7 ho | h_8 ho | h_13 ho => cases h; exact hB ho
  case h_17 => cases h

/-! ## The invariant -/

theorem canRaise_ne_programCounter {i : Instr} {code : ErrorCode} (h : canRaise i code = true) :
    code ≠ .programCounterOutOfRange := by
  rintro rfl
  cases i <;> cases h

/-- An effect leaves memory alone or stores a run of bytes, and either keeps the canonical form. -/
theorem acts_mem_wf {i : Instr} {s t : State} (h : Acts i s t) (hm : s.mem.wf = true) : t.mem.wf = true := by
  cases i with
  | ldB x | ldMemV x =>
    cases h
    exact Memory.writeBytes_wf _ _ hm
  | ret => rcases h with ⟨w, rest, _, rfl⟩ | ⟨_, _, rfl⟩ <;> exact hm
  | call nnn =>
    obtain ⟨_, rfl⟩ := h
    exact hm
  | skp x | sknp x | ldVK x =>
    obtain ⟨k, rest, _, rfl⟩ := h
    simpa using hm
  | _ =>
    cases h
    simpa using hm

/-- An effect leaves the stack alone, pushes PC on a stack with room, or pops (R32, R34). -/
theorem acts_stack {i : Instr} {s t : State} (h : Acts i s t) :
    t.stack = s.stack ∨ (s.stack.length < stackDepth ∧ t.stack = s.pc :: s.stack) ∨ ∃ w, s.stack = w :: t.stack := by
  cases i with
  | ret =>
    rcases h with ⟨w, rest, hs, rfl⟩ | ⟨_, _, rfl⟩
    · exact .inr (.inr ⟨w, hs⟩)
    · exact .inl rfl
  | call nnn =>
    obtain ⟨hl, rfl⟩ := h
    exact .inr (.inl ⟨hl, rfl⟩)
  | _ => exact .inl ((acts_keepsBut h).1 .stack (by simp [writesParts]))

/-- The effect of a key instruction ends its wait; every other effect keeps the status. -/
theorem acts_status {i : Instr} {s t : State} (h : Acts i s t) :
    t.status = .running ∨ (t.status = s.status ∧ ∀ (kind : KeyOp) x, i ≠ kind.instr x) := by
  cases i with
  | skp x | sknp x | ldVK x =>
    obtain ⟨k, rest, _, rfl⟩ := h
    exact .inl (by simp)
  | ret =>
    refine .inr ⟨?_, fun kind x => by cases kind <;> nofun⟩
    rcases h with ⟨w, rest, _, rfl⟩ | ⟨_, _, rfl⟩ <;> rfl
  | call nnn =>
    refine .inr ⟨?_, fun kind x => by cases kind <;> nofun⟩
    obtain ⟨_, rfl⟩ := h
    rfl
  | _ =>
    refine .inr ⟨?_, fun kind x => by cases kind <;> nofun⟩
    cases h
    simp

/-- The invariant inside the execute step of `i`, whose word lies before PC (R82). -/
structure Executing (i : Instr) (s : State) : Prop where
  memory : s.mem.wf = true
  depth : s.stack.length ≤ 16
  returns : ∀ w ∈ s.stack, w.toNat ≤ 0x1000
  past : 2 ≤ s.pc.toNat
  top : s.pc.toNat ≤ 0x1000
  word : s.mem.readWord (s.pc.toNat - 2) = encode i
  live : s.status = .running ∨ ∃ (kind : KeyOp) (x : Reg), i = kind.instr x

/-- The record of an error names the word before PC (R193). -/
theorem statusCoherent_raiseError {s : State} {code : ErrorCode} {w : Word} (hc : code ≠ .programCounterOutOfRange)
    (hp : 2 ≤ s.pc.toNat) (ht : s.pc.toNat ≤ 0x1000) (hw : s.mem.readWord (s.pc.toNat - 2) = w) :
    StatusCoherent (raiseError code w s) := by
  have ha : (s.pc - 2#16).toNat = s.pc.toNat - 2 := BitVec.toNat_sub_of_le hp
  simp only [StatusCoherent, raiseError_status, raiseError_pc, raiseError_mem, ha, hw]
  exact ⟨hp, ht, hc, trivial, trivial⟩

theorem exec_pc_le {i : Instr} {s t : State} (hs : Executing i s) (h : exec i s = .next t) :
    t.pc.toNat ≤ 0x10FE := by
  have htop := hs.top
  rcases onlyListedPcWrites i s t h with hp | ⟨_, hp⟩ | ⟨nnn, _, hp⟩ | ⟨nnn, _, hp⟩ | ⟨_, rest, hp⟩
  · rw [hp]
    omega
  · rw [hp, BitVec.toNat_add]
    simp only [BitVec.toNat_ofNat]
    omega
  · omega
  · have := (s.reg 0x0#4).isLt
    omega
  · have := hs.returns t.pc (by simp [hp])
    omega

/-- An effect leaves the machine running, with a stack that still holds at most 16 addresses in range. -/
theorem acts_inv {i : Instr} {s t : State} (hs : Executing i s) (h : Acts i s t) (hpc : t.pc.toNat ≤ 0x10FE) :
    t.Inv := by
  have hmem := acts_mem_wf h hs.memory
  have hrun : t.status = .running := by
    rcases acts_status h with hr | ⟨hr, hk⟩
    · exact hr
    · exact hr.trans (hs.live.resolve_right fun ⟨kind, x, hi⟩ => hk kind x hi)
  have hcoh : StatusCoherent t := by simp [StatusCoherent, hrun]
  have hdepth := hs.depth
  have hret := hs.returns
  rcases acts_stack h with hst | ⟨hl, hst⟩ | ⟨w, hst⟩
  · exact ⟨hmem, hst ▸ hdepth, hst ▸ hret, hpc, hcoh⟩
  · refine ⟨hmem, hst ▸ hl, ?_, hpc, hcoh⟩
    simpa [hst] using ⟨hs.top, hret⟩
  · rw [hst] at hdepth hret
    exact ⟨hmem, Nat.le_of_succ_le hdepth, fun v hv => hret v (List.mem_cons_of_mem w hv), hpc, hcoh⟩

/-- Executing an instruction whose word lies before PC restores the invariant. -/
theorem exec_inv {i : Instr} {s t : State} (hs : Executing i s) (h : exec i s = .next t) : t.Inv := by
  have hpc := exec_pc_le hs h
  rcases exec_cases h with ⟨kind, x, rfl, rfl⟩ | ⟨code, answers, hc, rfl⟩ | h
  · exact ⟨hs.memory, hs.depth, hs.returns, hpc, hs.past, hs.top, hs.word⟩
  · exact ⟨hs.memory, hs.depth, hs.returns, hpc,
      statusCoherent_raiseError (canRaise_ne_programCounter hc) hs.past hs.top hs.word⟩
  · exact acts_inv hs h hpc

/-- Everything a step can do: report halted, execute the fetched instruction, reject the fetched word, or go on with the
instruction whose key request is open (R80, R182). -/
theorem step_cases {s t : State} (h : step s = .next t) :
    (0xFFE < s.pc.toNat ∧ s.status = .running ∧ t = haltOutOfRange (tickTimers s))
    ∨ (s.pc.toNat ≤ 0xFFE ∧ s.status = .running
      ∧ ∃ i, decode (fetchWord s) = .ok i ∧ exec i (advancePc (tickTimers s)) = .next t)
    ∨ (s.pc.toNat ≤ 0xFFE ∧ s.status = .running ∧ (∃ r, decode (fetchWord s) = .error r)
      ∧ t = raiseError .unsupportedOpcode (fetchWord s) (advancePc (tickTimers s)))
    ∨ ∃ kind x, s.status = .awaitKey kind x ∧ exec (kind.instr x) s = .next t := by
  unfold step transition at h
  cases hs : s.status with
  | halted r | error r => simp only [hs] at h; cases h
  | awaitKey kind x =>
    simp only [hs] at h
    exact .inr (.inr (.inr ⟨kind, x, rfl, h⟩))
  | running =>
    simp only [hs] at h
    unfold tick runCycle at h
    simp only [pcOutOfRange_tickTimers, fetchWord_tickTimers] at h
    by_cases hp : pcOutOfRange s = true
    · simp only [hp] at h
      cases h
      exact .inl ⟨(pcOutOfRange_iff s).1 hp, rfl, rfl⟩
    · have hle : s.pc.toNat ≤ 0xFFE := Nat.le_of_not_lt (mt (pcOutOfRange_iff s).2 hp)
      simp only [Bool.not_eq_true] at hp
      cases hd : decode (fetchWord s) with
      | ok i =>
        simp only [hp, hd] at h
        exact .inr (.inl ⟨hle, rfl, i, rfl, h⟩)
      | error r =>
        simp only [hp, hd] at h
        cases h
        exact .inr (.inr (.inl ⟨hle, rfl, ⟨r, rfl⟩, rfl⟩))

/-- Fetching advances PC past the word (R82). -/
theorem advancePc_toNat {s : State} (h : s.pc.toNat ≤ 0xFFE) : (advancePc s).pc.toNat = s.pc.toNat + 2 := by
  rw [advancePc_pc, BitVec.toNat_add]
  simp only [BitVec.toNat_ofNat]
  omega

/-- Settles O10: the four things a step can do; an executed instruction by `exec_inv`. -/
theorem stepKeepsTheInvariant : Obligations.StepKeepsTheInvariant := by
  intro s t hs h
  rcases step_cases h with ⟨hp, _, rfl⟩ | ⟨hp, hr, i, hd, hx⟩ | ⟨hp, _, _, rfl⟩ | ⟨kind, x, ha, hx⟩
  · exact ⟨hs.memory, hs.depth, hs.returns, hs.counter, hp, rfl⟩
  · have hn : (advancePc (tickTimers s)).pc.toNat = s.pc.toNat + 2 := advancePc_toNat hp
    refine exec_inv (s := advancePc (tickTimers s))
      ⟨hs.memory, hs.depth, hs.returns, by omega, by omega, ?_, .inl hr⟩ hx
    rw [hn, encode_of_decode hd]
    rfl
  · have hn : (advancePc (tickTimers s)).pc.toNat = s.pc.toNat + 2 := advancePc_toNat hp
    refine ⟨hs.memory, hs.depth, hs.returns, ?_, statusCoherent_raiseError nofun (by omega) (by omega) ?_⟩
    · rw [raiseError_pc, hn]
      omega
    · rw [hn]
      rfl
  · have hc := hs.status
    simp only [StatusCoherent, ha] at hc
    obtain ⟨hpast, htop, hword⟩ := hc
    exact exec_inv ⟨hs.memory, hs.depth, hs.returns, hpast, htop, hword, .inr ⟨kind, x, rfl⟩⟩ hx

/-! ## Two runs that differ in one register -/

/-- Where the first result is a next state, the second is one that differs from it in the register `r` at most. -/
def SameBut (r : Reg) (o o' : Result) : Prop :=
  ∀ t, o = .next t → ∃ t', o' = .next t' ∧ t'.setReg r 0#8 = t.setReg r 0#8

theorem State.setReg_setReg (s : State) (x : Reg) (b c : Byte) : (s.setReg x b).setReg x c = s.setReg x c :=
  congrArg s.setV (Vector.set_set ..)

theorem State.setReg_comm (s : State) {x y : Reg} (b c : Byte) (h : x ≠ y) :
    (s.setReg x b).setReg y c = (s.setReg y c).setReg x b :=
  congrArg s.setV (Vector.set_comm _ _ (mt BitVec.eq_of_toNat_eq h))

theorem State.setReg_setV (s : State) (x : Reg) (b : Byte) (v : Vector Byte 16) :
    (s.setReg x b).setV v = s.setV v := rfl

theorem State.setV_setReg (s : State) (x : Reg) (b : Byte) (v : Vector Byte 16) :
    (s.setV v).setReg x b = s.setV (v.set x.toNat b) := rfl

theorem skipIf_setReg (c : Bool) (s : State) (r : Reg) (b : Byte) :
    skipIf c (s.setReg r b) = (skipIf c s).setReg r b := by
  cases c <;> rfl

theorem popWord_setReg (s : State) (r : Reg) (b : Byte) :
    popWord (s.setReg r b) = (popWord s).map fun p => (p.1, p.2.setReg r b) := by
  unfold popWord
  rw [State.setReg_stack]
  cases s.stack <;> rfl

section SameBut

variable {r : Reg} {s : State} {b : Byte}

theorem sameBut_next {t t' : State} (h : t'.setReg r 0#8 = t.setReg r 0#8) : SameBut r (.next t) (.next t') := by
  intro u hu
  cases hu
  exact ⟨t', rfl, h⟩

/-- The effect carries the changed register along. -/
theorem sameBut_next_setReg {t : State} : SameBut r (.next t) (.next (t.setReg r b)) :=
  sameBut_next (State.setReg_setReg ..)

/-- The same byte written to any register keeps two states equal but for `r`. -/
theorem setReg_congr_but {u : State} (x : Reg) (c : Byte) (h : u.setReg r 0#8 = s.setReg r 0#8) :
    (u.setReg x c).setReg r 0#8 = (s.setReg x c).setReg r 0#8 := by
  by_cases hx : x = r
  · simp only [hx, State.setReg_setReg, h]
  · simp only [State.setReg_comm _ _ _ hx, h]

theorem sameBut_setReg (x : Reg) (c : Byte) : SameBut r (.next (s.setReg x c)) (.next ((s.setReg r b).setReg x c)) :=
  sameBut_next (setReg_congr_but x c (State.setReg_setReg ..))

theorem sameBut_writeWithFlag (x : Reg) (c : Byte) (f : Bool) :
    SameBut r (.next (writeWithFlag s x c f)) (.next (writeWithFlag (s.setReg r b) x c f)) := by
  unfold writeWithFlag
  exact sameBut_next (setReg_congr_but _ _ (setReg_congr_but x c (State.setReg_setReg ..)))

/-- The block load reads memory alone: the registers above Vx are the same but for `r`. -/
theorem sameBut_loadedBlock (x : Reg) :
    SameBut r (.next (s.setV (loadedBlock s x))) (.next ((s.setReg r b).setV (loadedBlock (s.setReg r b) x))) := by
  have hv : (loadedBlock (s.setReg r b) x).set r.toNat 0#8 = (loadedBlock s x).set r.toNat 0#8 := by
    refine Vector.ext fun k hk => ?_
    by_cases hr : r.toNat = k
    · simp [hr]
    · simp [hr, loadedBlock, State.setReg_v]
  refine sameBut_next ?_
  rw [State.setReg_setV, State.setV_setReg, State.setV_setReg, hv]

theorem regBlock_setReg {x : Reg} (h : x.toNat < r.toNat) : regBlock (s.setReg r b) x = regBlock s x := by
  simp only [regBlock, State.setReg_v, Vector.toList_set]
  exact List.take_set_of_le h

theorem sameBut_checkedAccess {n : Nat} {i : Instr} {o o' : Result} (h : SameBut r o o') :
    SameBut r (checkedAccess s n i o) (checkedAccess (s.setReg r b) n i o') := by
  unfold checkedAccess
  rw [dataOutOfRange_setReg]
  cases dataOutOfRange s n with
  | true => exact sameBut_next_setReg
  | false => exact h

theorem sameBut_keyWait {kind : KeyOp} {x : Reg} {f : Nibble → State → State}
    (h : ∀ k u, (f k (u.setReg r b)).setReg r 0#8 = (f k u).setReg r 0#8) :
    SameBut r (keyWait kind x f s) (keyWait kind x f (s.setReg r b)) := by
  unfold keyWait
  rw [State.setReg_keyAnswers]
  cases s.keyAnswers with
  | nil => exact sameBut_next_setReg
  | cons a rest =>
    cases a with
    | key k => exact sameBut_next (h k ((s.setKeyAnswers rest).setStatus .running))
    | cancel => exact sameBut_next_setReg

theorem sameBut_execRet : SameBut r (execRet s) (execRet (s.setReg r b)) := by
  unfold execRet
  rw [popWord_setReg, State.setReg_underflowPolicy]
  cases popWord s with
  | some p => exact sameBut_next_setReg
  | none => cases s.underflowPolicy <;> exact sameBut_next_setReg

theorem sameBut_execCall (nnn : Addr) : SameBut r (execCall nnn s) (execCall nnn (s.setReg r b)) := by
  unfold execCall pushWord
  rw [State.setReg_stack]
  split_ifs <;> exact sameBut_next_setReg

end SameBut

/-- Settles O18: the operands an instruction reads are the same in both runs. -/
theorem unlistedRegistersAreNotRead : Obligations.UnlistedRegistersAreNotRead := by
  intro i s t r b hr h
  suffices hs : SameBut r (exec i s) (exec i (s.setReg r b)) from hs t h
  clear h
  have keep {x : Reg} (hx : (r == x) = false) : (s.setReg r b).reg x = s.reg x :=
    State.reg_setReg_of_ne s b (ne_of_beq_false hx).symm
  have keep₂ {x y : Reg} (hxy : (r == x || r == y) = false) :
      (s.setReg r b).reg x = s.reg x ∧ (s.setReg r b).reg y = s.reg y :=
    ⟨keep (Bool.or_eq_false_iff.1 hxy).1, keep (Bool.or_eq_false_iff.1 hxy).2⟩
  cases i with
  | cls | sys nnn | jp nnn | ldI nnn => exact sameBut_next_setReg
  | ret => exact sameBut_execRet
  | call nnn => exact sameBut_execCall nnn
  | seVB x nn | sneVB x nn =>
    simp only [exec, execSeVB, execSneVB, keep hr, skipIf_setReg]
    exact sameBut_next_setReg
  | seVV x y | sneVV x y =>
    obtain ⟨hx, hy⟩ := keep₂ hr
    simp only [exec, execSeVV, execSneVV, hx, hy, skipIf_setReg]
    exact sameBut_next_setReg
  | jpV0 nnn | addI x | ldF x | ldDTV x | ldSTV x =>
    simp only [exec, execJpV0, execAddI, execLdF, execLdDTV, execLdSTV, keep hr]
    exact sameBut_next_setReg
  | ldVB x nn | rnd x nn | ldVDT x => exact sameBut_setReg x _
  | addVB x nn | ldVV x y =>
    simp only [exec, execAddVB, execLdVV, keep hr]
    exact sameBut_setReg x _
  | orVV x y | andVV x y | xorVV x y =>
    obtain ⟨hx, hy⟩ := keep₂ hr
    simp only [exec, execOrVV, execAndVV, execXorVV, hx, hy]
    exact sameBut_setReg x _
  | addVV x y | sub x y | subn x y =>
    obtain ⟨hx, hy⟩ := keep₂ hr
    simp only [exec, execAddVV, execSub, execSubn, hx, hy]
    exact sameBut_writeWithFlag x _ _
  | shr x y | shl x y =>
    simp only [exec, execShr, execShl, keep hr]
    exact sameBut_writeWithFlag x _ _
  | drw x y n =>
    obtain ⟨hx, hy⟩ := keep₂ hr
    simp only [exec, execDrw, hx, hy]
    exact sameBut_checkedAccess (sameBut_setReg Reg.vf _)
  | ldB x =>
    simp only [exec, execLdB, keep hr]
    exact sameBut_checkedAccess sameBut_next_setReg
  | ldMemV x =>
    simp only [exec, execLdMemV, regBlock_setReg (Nat.lt_of_not_le (of_decide_eq_false hr))]
    exact sameBut_checkedAccess sameBut_next_setReg
  | ldVMem x => exact sameBut_checkedAccess (sameBut_loadedBlock x)
  | skp x | sknp x =>
    simp only [exec, execSkp, execSknp]
    refine sameBut_keyWait fun k u => ?_
    rw [State.reg_setReg_of_ne u b (ne_of_beq_false hr).symm, skipIf_setReg, State.setReg_setReg]
  | ldVK x =>
    simp only [exec, execLdVK]
    exact sameBut_keyWait fun k u => setReg_congr_but x _ (State.setReg_setReg ..)

/-! ## Key requests -/

/-- A key instruction is a key wait; what it does with a key is its own. -/
theorem exec_keyInstr (kind : KeyOp) (x : Reg) (s : State) :
    ∃ onKey, exec (kind.instr x) s = keyWait kind x onKey s := by
  cases kind <;> simp only [KeyOp.instr, exec, execSkp, execSknp, execLdVK] <;> exact ⟨_, rfl⟩

/-- Settles O51: the wait that meets Cancel raises. -/
theorem cancelledKeyWaitRaises : Obligations.CancelledKeyWaitRaises := by
  intro kind x s rest h
  obtain ⟨onKey, he⟩ := exec_keyInstr kind x s
  refine ⟨raiseError .keyWaitCancelled (encode (kind.instr x)) (s.setKeyAnswers rest), ?_, rfl, fun _ _ => rfl, ?_⟩
  · simp only [he, keyWait, h]
  · simp

/-- Settles O52: the wait that meets no answer opens the request. -/
theorem keyRequestOpens : Obligations.KeyRequestOpens := by
  intro kind x s h
  obtain ⟨onKey, he⟩ := exec_keyInstr kind x s
  refine ⟨s.setStatus (.awaitKey kind x), ?_, rfl, fun _ _ => rfl, ?_⟩
  · simp only [he, keyWait, h]
  · simp

/-! ## Reset and loading -/

/-- Settles O11: nothing is listed in memory and nothing is on the stack. -/
theorem resetMeetsTheInvariant : Obligations.ResetMeetsTheInvariant where
  memory := reset_mem_wf
  depth := Nat.zero_le _
  returns := nofun
  counter := by decide
  status := trivial

theorem unloadedByte_eq (c : Config) (d : ResetDraws) {a : Nat} (h : a < 4096) :
    unloadedByte c d a = if c.resetZero then 0#8 else d.mem[a] := by
  simp [unloadedByte, h]

/-- The byte past every glyph is 0 (D10). -/
theorem Memory.background_of_ge {a : Nat} (h : 80 ≤ a) : Memory.background a = 0#8 := by
  have : fontGlyphs.length ≤ a / 5 := by simp [fontGlyphs]; omega
  rw [Memory.background, List.getD_eq_default _ _ this, List.getD_nil]

/-- The default boot loads nothing that an unlisted address does not read as. -/
theorem bootByte_default (d : ResetDraws) (a : Nat) :
    bootByte defaultConfig d none [] a = Memory.background a := by
  unfold bootByte
  split_ifs with ha
  · simp [defaultConfig, ha]
  · simp [unloadedByte, defaultConfig, Memory.background_of_ge (show 80 ≤ a by omega)]

theorem Memory.ofBytes_background {f : Nat → Byte} (h : ∀ a, f a = Memory.background a) :
    Memory.ofBytes f = [] :=
  List.filterMap_eq_nil_iff.2 fun a _ => if_pos (h a)

/-- Settles O25: the memory lists nothing, and every other field is the default's. -/
theorem defaultBootIsReset : Obligations.DefaultBootIsReset := by
  intro d
  have hm := Memory.ofBytes_background (bootByte_default d)
  rw [State.boot, if_neg (by decide), hm]
  rfl

theorem boot_tooLarge {c : Config} {d : ResetDraws} {rom : Option (List Byte)} {prog : List Byte}
    (h : romMax < (rom.getD []).length ∨ progMax < prog.length) : State.boot c d rom prog = none :=
  if_pos h

/-- Settles O24: the memory of a boot reads as `bootByte`, whose branches are the regions of the map. -/
theorem bootLoadsImages : Obligations.BootLoadsImages := by
  refine ⟨fun c d rom prog hrom hprog => ?_, fun c d rom prog h => boot_tooLarge ?_⟩
  · have hfit : ¬(romMax < (rom.getD []).length ∨ progMax < prog.length) := by
      rintro (hr | hp)
      · cases rom with
        | none => cases hr
        | some image => exact Nat.not_lt.2 (hrom image rfl) hr
      · exact Nat.not_lt.2 hprog hp
    have hread {k : Nat} (hk : k < 4096) :
        (Memory.ofBytes (bootByte c d rom prog)).read k = bootByte c d rom prog k := Memory.read_ofBytes _ k hk
    rw [State.boot, if_neg hfit]
    refine ⟨_, rfl, ?_⟩
    refine ⟨rfl, rfl, rfl, ?_, fun k hk => ?_, fun image hi k hk => ?_,
      fun hn k hk => ?_, fun k hk hpast => ?_, fun r => ?_, rfl, rfl, rfl, fun row col => ?_⟩
    · simp only [Memory.ofBytes_wf]
    · rw [hread (by omega)]
      simp [bootByte, hk]
    · have hlen := hrom image hi
      rw [hread (by omega)]
      simp [bootByte, hi, hk, Nat.lt_of_lt_of_le hk hlen]
    · rw [hread (by omega)]
      simp [bootByte, hn, hk]
    · have hlow : ¬ k < 0x200 := by omega
      have hout : prog.length ≤ k - 0x200 := by omega
      rw [hread hk, ← unloadedByte_eq c d hk]
      simp [bootByte, hlow, hout]
    · cases hz : c.resetZero <;> simp [State.reg]
    · cases hz : c.resetZero <;> simp [fbRead_fbBlank]
  · rcases h with ⟨image, rfl, hi⟩ | hp
    · exact .inl hi
    · exact .inr hp

end Sys2Proof.Machine

/-! The family of memory: what a write does to later reads, when two memories are one, stored code, data accesses out of
range, and the key wait that splits a tick. -/

namespace Sys2Proof.Machine

/-! ## Reading and the canonical form -/

/-- Settles O21: `Memory.read_write`, with the address in the range of R50. -/
theorem memoryReadsTheLatestWrite : Obligations.MemoryReadsTheLatestWrite := by
  intro m a k b ha
  have ha : a < memSize := Nat.lt_succ_of_le ha
  constructor
  · rw [Memory.read_write, if_pos ⟨rfl, ha⟩]
  · intro hk
    rw [Memory.read_write, if_neg fun h => hk h.1]

theorem Memory.read_cons_self (c : Host.Cell) (m : Memory) : Memory.read (c :: m) c.1 = c.2 :=
  if_pos rfl

theorem Memory.read_cons_of_ne {c : Host.Cell} {a : Nat} (m : Memory) (h : c.1 ≠ a) :
    Memory.read (c :: m) a = m.read a :=
  if_neg h

theorem Memory.canonicalFrom_cons {lo : Nat} {c : Host.Cell} {m : Memory} :
    Memory.canonicalFrom lo (c :: m) = true ↔
      lo ≤ c.1 ∧ c.1 < memSize ∧ c.2 ≠ Memory.background c.1 ∧ Memory.canonicalFrom (c.1 + 1) m = true := by
  simp [Memory.canonicalFrom, and_assoc]

/-- No address below the first cell of a canonical memory reads as anything but its background. -/
theorem Memory.head_le_of_read_ne {lo a : Nat} {c : Host.Cell} {m : Memory}
    (hm : Memory.canonicalFrom lo (c :: m) = true) (h : Memory.read (c :: m) a ≠ Memory.background a) : c.1 ≤ a := by
  obtain ⟨_, hcell⟩ := Memory.canonicalFrom_cons.1 hm
  by_contra hac
  exact h (Memory.read_of_lt (Nat.lt_of_not_le hac) (Memory.canonicalFrom_cons.2 ⟨le_rfl, hcell⟩))

/-- The cells of a canonical memory can be read off: the first one is at the lowest address that does not read as its
background, and the rest read as the whole memory does but for that address. -/
theorem Memory.eq_of_read_eq {m m' : Memory} {lo lo' : Nat} (hm : Memory.canonicalFrom lo m = true)
    (hm' : Memory.canonicalFrom lo' m' = true) (h : ∀ a, a < memSize → m.read a = m'.read a) : m = m' := by
  induction m generalizing m' lo lo' with
  | nil =>
    cases m' with
    | nil => rfl
    | cons d rest' =>
      obtain ⟨_, hlt, hb, _⟩ := Memory.canonicalFrom_cons.1 hm'
      exact absurd ((h d.1 hlt).trans (Memory.read_cons_self d rest')).symm hb
  | cons c rest ih =>
    obtain ⟨_, hlt, hb, hrest⟩ := Memory.canonicalFrom_cons.1 hm
    have hc := h c.1 hlt
    rw [Memory.read_cons_self] at hc
    cases m' with
    | nil => exact absurd hc hb
    | cons d rest' =>
      obtain ⟨_, hlt', hb', hrest'⟩ := Memory.canonicalFrom_cons.1 hm'
      have hd := h d.1 hlt'
      rw [Memory.read_cons_self] at hd
      have haddr : c.1 = d.1 :=
        Nat.le_antisymm (Memory.head_le_of_read_ne hm (hd ▸ hb')) (Memory.head_le_of_read_ne hm' (hc ▸ hb))
      have hcell : c = d := Prod.ext haddr (by rw [hc, haddr, Memory.read_cons_self])
      subst hcell
      refine congrArg (c :: ·) (ih hrest hrest' fun a ha => ?_)
      by_cases hca : c.1 = a
      · subst hca
        rw [Memory.read_of_lt (Nat.lt_succ_self _) hrest, Memory.read_of_lt (Nat.lt_succ_self _) hrest']
      · rw [← Memory.read_cons_of_ne rest hca, ← Memory.read_cons_of_ne rest' hca, h a ha]

/-- Settles O22: the cells are those the reads show. -/
theorem canonicalMemoriesAreEqual : Obligations.CanonicalMemoriesAreEqual := by
  intro m m' hm hm' h
  exact Memory.eq_of_read_eq hm hm' fun a ha => h a (Nat.le_of_lt_succ ha)

/-! ## The block store and the next fetch -/

theorem exec_ldMemV_inRange {x : Reg} {s : State} (h : s.i.toNat + x.toNat ≤ 0xFFF) :
    exec (.ldMemV x) s = .next (s.setMem (s.mem.writeBytes (dataAddr s 0) (regBlock s x))) :=
  checkedAccess_inRange (.inr (Nat.succ_le_succ h))

/-- The byte of `Vr` in a block store is at `I + r` (R154). -/
theorem read_writeBytes_regBlock {x r : Reg} {s : State} (h : s.i.toNat + x.toNat ≤ 0xFFF) (hr : r.toNat ≤ x.toNat) :
    (s.mem.writeBytes (dataAddr s 0) (regBlock s x)).read (dataAddr s r.toNat) = s.reg r := by
  have hfit : dataAddr s 0 + (regBlock s x).length ≤ memSize := by
    simp only [dataAddr_eq, regBlock_length, memSize]
    omega
  have hin : dataAddr s 0 ≤ dataAddr s r.toNat ∧ dataAddr s r.toNat < dataAddr s 0 + (regBlock s x).length := by
    simp only [dataAddr_eq, regBlock_length]
    omega
  have hoff : dataAddr s r.toNat - dataAddr s 0 = r.toNat := Nat.add_sub_cancel_left ..
  rw [Memory.read_writeBytes _ _ _ _ hfit, if_pos hin, hoff, regBlock_getD s x r hr]

/-- Settles O23: the bytes at PC and PC + 1 are those of Vr and its successor. -/
theorem storedCodeIsFetched : Obligations.StoredCodeIsFetched := by
  intro x r s hr hx hpc
  have hsucc : (r + 1#4).toNat = r.toNat + 1 := BitVec.toNat_add_of_lt (Nat.lt_of_le_of_lt hr x.isLt)
  have hnext : s.pc.toNat + 1 = dataAddr s (r + 1#4).toNat := by
    rw [hpc, hsucc]
    rfl
  refine ⟨_, exec_ldMemV_inRange hx, ?_⟩
  rw [fetchWord, Memory.readWord, State.setMem_pc, State.setMem_mem, hnext, hpc,
    read_writeBytes_regBlock hx (Nat.le_of_succ_le hr), read_writeBytes_regBlock hx (hsucc ▸ hr)]

/-! ## Data accesses out of range -/

/-- An instruction that is a data access of `count` bytes raises before its effect if the last one is above 0xFFF. -/
theorem raisesExactly_of_outOfRange {i : Instr} {s : State} {count : Nat} {effect : Result}
    (hi : exec i s = checkedAccess s count i effect) (h0 : 0 < count) (h : memSize < s.i.toNat + count) :
    RaisesExactly .addressOutOfRange i s [] :=
  ⟨_, hi.trans (checkedAccess_outOfRange h0 h), rfl, fun _ _ => rfl, by simp⟩

/-- Settles O44: the four memory forms are data accesses of 3, x + 1, x + 1 and n bytes. -/
theorem dataAccessOutOfRangeRaises : Obligations.DataAccessOutOfRangeRaises := by
  refine ⟨fun x s h => ?_, fun x s h => ?_, fun x s h => ?_, fun x y n s h0 h => ?_⟩
  · exact raisesExactly_of_outOfRange rfl (Nat.succ_pos 2) (Nat.succ_lt_succ h)
  · exact raisesExactly_of_outOfRange rfl (Nat.succ_pos x.toNat) (Nat.succ_lt_succ h)
  · exact raisesExactly_of_outOfRange rfl (Nat.succ_pos x.toNat) (Nat.succ_lt_succ h)
  · refine raisesExactly_of_outOfRange rfl h0 ?_
    rw [memSize]
    omega

/-! ## The key wait and the atomic tick -/

/-- A key instruction is one key wait, with the same action on a key in every state. -/
theorem exec_keyInstr_uniform (kind : KeyOp) (x : Reg) :
    ∃ onKey, ∀ s, exec (kind.instr x) s = keyWait kind x onKey s := by
  cases kind <;> simp only [KeyOp.instr, exec, execSkp, execSknp, execLdVK] <;> exact ⟨_, fun _ => rfl⟩

theorem keyWait_of_noAnswer {kind : KeyOp} {x : Reg} {f : Nibble → State → State} {s : State} (h : s.keyAnswers = []) :
    keyWait kind x f s = .next (s.setStatus (.awaitKey kind x)) := by
  rw [keyWait, h]

/-- A key wait with an answer there overwrites the status: it is the same from any. -/
theorem keyWait_setStatus {kind : KeyOp} {x : Reg} {f : Nibble → State → State} {s : State} (w : Status)
    (h : s.keyAnswers ≠ []) : keyWait kind x f (s.setStatus w) = keyWait kind x f s := by
  unfold keyWait
  rw [State.setStatus_keyAnswers]
  cases hs : s.keyAnswers with
  | nil => exact absurd hs h
  | cons a rest => cases a <;> rfl

/-- Settles O16: the wait left only the status, and the answered key wait overwrites it. -/
theorem waitedTickEqualsAtomicTick : Obligations.WaitedTickEqualsAtomicTick := by
  intro kind x s t a _ hs h
  obtain ⟨onKey, he⟩ := exec_keyInstr_uniform kind x
  have ht : t = s.setStatus (.awaitKey kind x) := by
    rw [he, keyWait_of_noAnswer hs] at h
    exact (Host.Outcome.next.inj h).symm
  have hans : (s.answerKey a).keyAnswers ≠ [] := by simp [State.answerKey]
  calc step (t.answerKey a)
      = exec (kind.instr x) ((s.answerKey a).setStatus (.awaitKey kind x)) := by rw [ht]; rfl
    _ = keyWait kind x onKey ((s.answerKey a).setStatus (.awaitKey kind x)) := he _
    _ = keyWait kind x onKey (s.answerKey a) := keyWait_setStatus _ hans
    _ = exec (kind.instr x) (s.answerKey a) := (he _).symm

end Sys2Proof.Machine

/-! The family of encoding: the fields of a word, the codec, the tick, and the assembly text. -/

namespace Sys2Proof

/-! ## Shifts and masks as numbers (R70, R71) -/

/-- A value shifted past everything below it is its place value in the number. -/
theorem zeroExtend_shiftLeft_or_toNat {v m k : Nat} (x : BitVec v) (y : BitVec m) (hm : v + k ≤ m)
    (hy : y.toNat < 2 ^ k) : (x.zeroExtend m <<< k ||| y).toNat = x.toNat * 2 ^ k + y.toNat := by
  have hx : x.toNat * 2 ^ k < 2 ^ m :=
    calc x.toNat * 2 ^ k < 2 ^ v * 2 ^ k := Nat.mul_lt_mul_of_pos_right x.isLt (Nat.two_pow_pos k)
      _ = 2 ^ (v + k) := (Nat.pow_add 2 v k).symm
      _ ≤ 2 ^ m := Nat.pow_le_pow_right Nat.two_pos hm
  have hs : (x.zeroExtend m <<< k).toNat = x.toNat <<< k := by
    rw [BitVec.toNat_shiftLeft, BitVec.toNat_setWidth_of_le (by omega), Nat.shiftLeft_eq, Nat.mod_eq_of_lt hx]
  rw [BitVec.toNat_or, hs, ← Nat.shiftLeft_add_eq_or_of_lt hy, Nat.shiftLeft_eq]

/-- R87: the packing of four nibbles is shift-and-or. -/
theorem packXYN_eq_or (o x y n : Nibble) : packXYN o x y n
    = (o.zeroExtend 16 <<< 12) ||| (x.zeroExtend 16 <<< 8) ||| (y.zeroExtend 16 <<< 4) ||| n.zeroExtend 16 := by
  have hn : (n.zeroExtend 16).toNat = n.toNat := BitVec.toNat_setWidth_of_le (by decide)
  have hy := zeroExtend_shiftLeft_or_toNat (k := 4) y (n.zeroExtend 16) (by decide) (by omega)
  have hx := zeroExtend_shiftLeft_or_toNat (k := 8) x (y.zeroExtend 16 <<< 4 ||| n.zeroExtend 16) (by decide) (by omega)
  have ho := zeroExtend_shiftLeft_or_toNat (k := 12) o
    (x.zeroExtend 16 <<< 8 ||| (y.zeroExtend 16 <<< 4 ||| n.zeroExtend 16)) (by decide) (by omega)
  apply BitVec.eq_of_toNat_eq
  rw [BitVec.or_assoc, BitVec.or_assoc, ho, hx, hy, hn, packXYN_toNat]
  omega

/-- A shift and a mask of `k` bits are a quotient and a remainder. -/
theorem shiftRight_and_mask_toNat (w : Word) (s k : Nat) (hk : k ≤ 16) :
    ((w >>> s) &&& BitVec.ofNat 16 (2 ^ k - 1)).toNat = w.toNat / 2 ^ s % 2 ^ k := by
  have hlt : 2 ^ k - 1 < 2 ^ 16 :=
    Nat.lt_of_lt_of_le (Nat.sub_one_lt (Nat.two_pow_pos k).ne') (Nat.pow_le_pow_right Nat.two_pos hk)
  rw [BitVec.toNat_and, BitVec.toNat_ushiftRight, BitVec.toNat_ofNat, Nat.mod_eq_of_lt hlt,
    Nat.and_two_pow_sub_one_eq_mod, Nat.shiftRight_eq_div_pow]

/-- A field that is a slice of the word as a number is that slice by shift and mask. -/
theorem zeroExtend_eq_shift_mask {w : Word} {k s : Nat} {f : BitVec k} (hk : k ≤ 16)
    (hf : f.toNat = w.toNat / 2 ^ s % 2 ^ k) : f.zeroExtend 16 = (w >>> s) &&& BitVec.ofNat 16 (2 ^ k - 1) := by
  apply BitVec.eq_of_toNat_eq
  rw [shiftRight_and_mask_toNat w s k hk, BitVec.toNat_setWidth_of_le hk, hf]

/-- Settles O2: each field is the slice of the number that its shift and mask take. -/
theorem fieldsAreShiftsAndMasks : Obligations.FieldsAreShiftsAndMasks := by
  intro w
  have low {k : Nat} {f : BitVec k} (hk : k ≤ 16) (hf : f.toNat = w.toNat % 2 ^ k) :
      f.zeroExtend 16 = w &&& BitVec.ofNat 16 (2 ^ k - 1) := by
    have h := zeroExtend_eq_shift_mask (w := w) (s := 0) hk (by rwa [Nat.pow_zero, Nat.div_one])
    rwa [BitVec.ushiftRight_zero] at h
  exact ⟨zeroExtend_eq_shift_mask (by decide) (op_toNat w), zeroExtend_eq_shift_mask (by decide) (fieldX_toNat w),
    zeroExtend_eq_shift_mask (by decide) (fieldY_toNat w), low (by decide) (fieldN_toNat w),
    low (by decide) (fieldNN_toNat w), low (by decide) (fieldNNN_toNat w)⟩

/-- Settles O3: the word is packed from its own nibbles, and the wide fields are sums of place values. -/
theorem fieldsRebuildTheWord : Obligations.FieldsRebuildTheWord := by
  intro w
  refine ⟨(packXYN_fields w).symm.trans (packXYN_eq_or _ _ _ _), BitVec.eq_of_toNat_eq ?_, BitVec.eq_of_toNat_eq ?_⟩
  · have hn : ((fieldN w).zeroExtend 8).toNat = (fieldN w).toNat := BitVec.toNat_setWidth_of_le (by decide)
    rw [zeroExtend_shiftLeft_or_toNat (fieldY w) _ (by decide) (by omega), hn, fieldNN_toNat, fieldY_toNat,
      fieldN_toNat]
    omega
  · have hn : ((fieldNN w).zeroExtend 12).toNat = (fieldNN w).toNat := BitVec.toNat_setWidth_of_le (by decide)
    rw [zeroExtend_shiftLeft_or_toNat (fieldX w) _ (by decide) (by omega), hn, fieldNNN_toNat, fieldX_toNat,
      fieldNN_toNat]
    omega

/-! ## The codec (R79, R87) -/

theorem packNNN_ne {o : Nibble} {a b : Addr} (h : a ≠ b) : packNNN o a ≠ packNNN o b := fun he =>
  h (by rw [← fieldNNN_packNNN o a, he, fieldNNN_packNNN])

theorem decode_sys {nnn : Addr} (h : (Instr.sys nnn).wf = true) : decode (packNNN 0x0#4 nnn) = .ok (.sys nnn) := by
  simp only [Instr.wf, Bool.and_eq_true, bne_iff_ne] at h
  obtain ⟨hcls, hret⟩ := h
  have hcls : packNNN 0x0#4 nnn ≠ 0x00E0#16 := packNNN_ne hcls
  have hret : packNNN 0x0#4 nnn ≠ 0x00EE#16 := packNNN_ne hret
  simp [decode, decodeFamily0, hcls, hret]

/-- The fields of a packed word are those packed, and the fixed ones select the instruction's row. -/
theorem decode_encode {i : Instr} (h : i.wf = true) : decode (encode i) = .ok i := by
  cases i with
  | cls | ret => rfl
  | sys nnn => exact decode_sys h
  | _ => simp [encode, decode, decodeFamily5, decodeFamily8, decodeFamily9, decodeFamilyE, decodeFamilyF]

/-- No word decodes to SYS with the address of CLS or RET. -/
theorem wf_of_decode {w : Word} {i : Instr} (h : decode w = .ok i) : i.wf = true := by
  have hw := Machine.encode_of_decode h
  cases i with
  | sys nnn =>
    subst hw
    rw [Instr.wf, Bool.and_eq_true, bne_iff_ne, bne_iff_ne]
    constructor <;> rintro rfl <;> exact absurd h (by decide)
  | _ => rfl

/-- Settles O1: `packXYN_eq_or`, `decode_encode` and `encode_of_decode`. -/
theorem decodeAndEncodeAgree : Obligations.DecodeAndEncodeAgree :=
  ⟨packXYN_eq_or, fun _ => decode_encode, fun _ _ h => ⟨Machine.encode_of_decode h, wf_of_decode h⟩⟩

open Machine (unsupportedRow)

/-- The word of an instruction lies in no unsupported row: its fixed fields are those of its own row. -/
theorem unsupportedRow_encode (i : Instr) : unsupportedRow (encode i) = false := by
  cases i with
  | cls | ret => rfl
  | _ => simp [unsupportedRow, encode]

theorem unsupportedRow_of_op8 {w : Word} (h : op w = 0x8#4) :
    unsupportedRow w = [0x8#4, 0x9#4, 0xA#4, 0xB#4, 0xC#4, 0xD#4, 0xF#4].contains (fieldN w) := by
  simp [unsupportedRow, h]

/-- Where decoding fails, the fields that select the row have none of the values with a row (R79). -/
theorem unsupportedRow_of_decode_error {w : Word} {r : Reject} (h : decode w = .error r) :
    r = .unsupportedOpcode ∧ unsupportedRow w = true := by
  unfold decode at h
  split at h
  case h_1 ho =>
    unfold decodeFamily0 at h
    split_ifs at h
  case h_6 ho =>
    unfold decodeFamily5 at h
    split_ifs at h with hn
    cases h
    simp [unsupportedRow, ho, hn]
  case h_9 ho =>
    unfold decodeFamily8 at h
    split at h <;> cases h
    refine ⟨rfl, ?_⟩
    rw [unsupportedRow_of_op8 ho]
    generalize fieldN w = n at *
    clear ho
    revert n
    decide
  case h_10 ho =>
    unfold decodeFamily9 at h
    split_ifs at h with hn
    cases h
    simp [unsupportedRow, ho, hn]
  case h_15 ho =>
    unfold decodeFamilyE at h
    split at h <;> cases h
    simp_all [unsupportedRow]
  case h_16 ho =>
    unfold decodeFamilyF at h
    split at h <;> cases h
    simp_all [unsupportedRow]
  case h_17 =>
    exfalso
    generalize op w = o at *
    clear h
    revert o
    decide
  all_goals cases h

/-- Settles O4: the word of an instruction is in no row, and a word without one is in a row. -/
theorem unsupportedWordsAreExact : Obligations.UnsupportedWordsAreExact := by
  intro w
  cases h : decode w with
  | ok i =>
    have hrow : unsupportedRow w = false := Machine.encode_of_decode h ▸ unsupportedRow_encode i
    simp [hrow]
  | error r =>
    obtain ⟨rfl, hrow⟩ := unsupportedRow_of_decode_error h
    simp [hrow]

end Sys2Proof

namespace Sys2Proof.Machine

/-! ## A tick, by its outcome (R80 to R86) -/

section Tick

variable {s : State}

theorem step_of_running (hs : s.status = .running) : step s = runCycle (tickTimers s) := by
  simp only [step, transition, hs, tick]

theorem step_of_pcOutOfRange (hs : s.status = .running) (hp : 0xFFE < s.pc.toNat) :
    step s = .next (haltOutOfRange (tickTimers s)) := by
  have hp : pcOutOfRange (tickTimers s) = true := (pcOutOfRange_iff s).2 hp
  simp only [step_of_running hs, runCycle, hp]

theorem step_of_decode_ok {i : Instr} (hs : s.status = .running) (hp : s.pc.toNat ≤ 0xFFE)
    (hd : decode (fetchWord s) = .ok i) : step s = exec i (advancePc (tickTimers s)) := by
  have hp : pcOutOfRange (tickTimers s) = false := decide_eq_false (Nat.not_lt.2 hp)
  simp only [step_of_running hs, runCycle, hp, fetchWord_tickTimers, hd]

theorem step_of_decode_error {r : Reject} (hs : s.status = .running) (hp : s.pc.toNat ≤ 0xFFE)
    (hd : decode (fetchWord s) = .error r) :
    step s = .next (raiseError .unsupportedOpcode (fetchWord s) (advancePc (tickTimers s))) := by
  have hp : pcOutOfRange (tickTimers s) = false := decide_eq_false (Nat.not_lt.2 hp)
  simp only [step_of_running hs, runCycle, hp, fetchWord_tickTimers, hd]

theorem countDown_eq_ofNat (t : Byte) : countDown t = BitVec.ofNat 8 (t.toNat - 1) := by
  apply BitVec.eq_of_toNat_eq
  rw [countDown_toNat, BitVec.toNat_ofNat]
  omega

/-- The state in which an instruction executes, field by field (R82). -/
theorem advancePc_tickTimers_eq (s : State) : advancePc (tickTimers s) =
    { s with dt := BitVec.ofNat 8 (s.dt.toNat - 1), st := BitVec.ofNat 8 (s.st.toNat - 1)
             pc := BitVec.ofNat 16 (s.pc.toNat + 2) } := by
  have hpc : s.pc + 2#16 = BitVec.ofNat 16 (s.pc.toNat + 2) := by
    rw [BitVec.ofNat_add, BitVec.ofNat_toNat, BitVec.setWidth_eq]
  rw [← countDown_eq_ofNat, ← countDown_eq_ofNat, ← hpc]
  rfl

@[simp] theorem keepsBut_tickTimers {l : List Part} (hd : .delay ∈ l) (ht : .sound ∈ l) :
    KeepsBut l s (tickTimers s) := by
  simp [tickTimers, hd, ht]

end Tick

/-- Settles O6: the word of the two bytes is the word fetched. -/
theorem stepRunsTheDecodedInstruction : Obligations.StepRunsTheDecodedInstruction := by
  intro s i hs hp hd
  rw [step_of_decode_ok hs hp hd, advancePc_tickTimers_eq]

/-- Settles O7: beside the timers, halting changes the status. -/
theorem tickPastTheTopHalts : Obligations.TickPastTheTopHalts := by
  intro s hs hp
  refine ⟨_, step_of_pcOutOfRange hs hp, rfl, countDown_toNat s.dt, countDown_toNat s.st, fun _ _ => rfl, ?_⟩
  simp [haltOutOfRange]

/-- Settles O8: a word in an unsupported row is the one that decoding rejects, and raising changes the status alone. -/
theorem unsupportedWordRaises : Obligations.UnsupportedWordRaises := by
  intro s hs hp hrow
  refine ⟨_, step_of_decode_error hs hp ((unsupportedWordsAreExact _).1.2 hrow), ?_, rfl, countDown_toNat s.dt,
    countDown_toNat s.st, fun _ _ => rfl, ?_⟩
  · simp
  · simp [advancePc]

/-! ## Who writes a timer (R86) -/

theorem eq_ldDTV_of_delay_mem {i : Instr} (h : .delay ∈ writesParts i) : ∃ x, i = .ldDTV x := by
  cases i <;> simp [writesParts] at h ⊢

theorem eq_ldSTV_of_sound_mem {i : Instr} (h : .sound ∈ writesParts i) : ∃ x, i = .ldSTV x := by
  cases i <;> simp [writesParts] at h ⊢

theorem exec_dt {i : Instr} {s t : State} (h : exec i s = .next t) (hi : ∀ x, i ≠ .ldDTV x) : t.dt = s.dt := by
  refine (onlyListedPartsAreWritten i s t h).1 .delay fun hm => ?_
  obtain ⟨x, hx⟩ := eq_ldDTV_of_delay_mem (by simpa using hm)
  exact hi x hx

theorem exec_st {i : Instr} {s t : State} (h : exec i s = .next t) (hi : ∀ x, i ≠ .ldSTV x) : t.st = s.st := by
  refine (onlyListedPartsAreWritten i s t h).1 .sound fun hm => ?_
  obtain ⟨x, hx⟩ := eq_ldSTV_of_sound_mem (by simpa using hm)
  exact hi x hx

/-- Settles O14: a tick that halts or raises keeps the timers as its first step left them, and so does an instruction
that writes none. -/
theorem everyTickCountsTheTimers : Obligations.EveryTickCountsTheTimers := by
  intro s t hs h
  rcases step_cases h with ⟨_, _, rfl⟩ | ⟨hp, _, i, hd, hx⟩ | ⟨_, _, _, rfl⟩ | ⟨kind, x, ha, _⟩
  · exact ⟨fun _ => countDown_toNat s.dt, fun _ => countDown_toNat s.st⟩
  · rw [hd]
    constructor <;> intro hi <;> have hi := hi.resolve_left (Nat.not_lt.2 hp)
    · rw [exec_dt hx fun x hxi => hi x (congrArg _ hxi)]
      exact countDown_toNat s.dt
    · rw [exec_st hx fun x hxi => hi x (congrArg _ hxi)]
      exact countDown_toNat s.st
  · exact ⟨fun _ => countDown_toNat s.dt, fun _ => countDown_toNat s.st⟩
  · rw [hs] at ha
    cases ha

end Sys2Proof.Machine

namespace Sys2Proof

/-! ## The lines of a text (R94, R95) -/

/-- The line is not blank and matches no form. -/
def malformedLine (line : Text) : Bool := lineTokens line != [] && (parseTokens (lineTokens line)).isNone

theorem malformedLine_iff {line : Text} :
    malformedLine line = true ↔ lineTokens line ≠ [] ∧ parseTokens (lineTokens line) = none := by
  simp [malformedLine]

theorem not_malformedLine_iff {line : Text} :
    ¬ malformedLine line = true ↔ lineTokens line = [] ∨ ∃ i, parseTokens (lineTokens line) = some i := by
  rw [malformedLine_iff]
  exact not_and_or.trans (or_congr not_not Option.ne_none_iff_exists')

theorem parseLines_cons_of_malformed {line : Text} (k : Nat) (rest : List Text) (h : malformedLine line = true) :
    parseLines k (line :: rest) = .error (.malformed k) := by
  obtain ⟨hne, hnone⟩ := malformedLine_iff.1 h
  simp only [parseLines, hne, hnone, if_false]

/-- A line that is blank or an instruction leaves the errors to the lines after it. -/
theorem parseLines_cons_error_iff {line : Text} (k : Nat) (rest : List Text) (e : AsmError)
    (h : ¬ malformedLine line = true) :
    parseLines k (line :: rest) = .error e ↔ parseLines (k + 1) rest = .error e := by
  by_cases hb : lineTokens line = []
  · simp only [parseLines, hb, if_true]
  · obtain ⟨i, hi⟩ := (not_malformedLine_iff.1 h).resolve_left hb
    simp only [parseLines, hb, hi, if_false]
    cases parseLines (k + 1) rest <;> simp

/-- Reading lines fails at the first malformed one, with its number counted from `k`. -/
theorem parseLines_error_iff (k : Nat) (lines : List Text) (e : AsmError) :
    parseLines k lines = .error e ↔ ∃ j, lines.findIdx? malformedLine = some j ∧ e = .malformed (j + k) := by
  induction lines generalizing k with
  | nil => simp [parseLines]
  | cons line rest ih =>
    rw [List.findIdx?_cons]
    by_cases h : malformedLine line = true
    · simp [parseLines_cons_of_malformed k rest h, h, eq_comm]
    · rw [parseLines_cons_error_iff k rest e h, ih, if_neg h]
      simp [Nat.add_assoc, Nat.add_comm 1 k]

theorem assemble_malformed_iff (text : Text) (n : Nat) :
    assemble text = .error (.malformed n) ↔ parseLines 1 (linesFrom [] text) = .error (.malformed n) := by
  unfold assemble
  cases parseLines 1 (linesFrom [] text) with
  | error e => simp
  | ok l => simp only; split <;> simp

theorem flatMap_encodeBytes_length (l : List Instr) : (l.flatMap encodeBytes).length = 2 * l.length := by
  simp [List.length_flatMap, encodeBytes, Nat.mul_comm]

theorem assemble_length_le {text : Text} {bytes : List Byte} (h : assemble text = .ok bytes) : bytes.length ≤ 3584 := by
  unfold assemble at h
  split at h
  · cases h
  · split_ifs at h with hl
    cases h
    rw [flatMap_encodeBytes_length]
    exact Nat.mul_le_mul_left 2 (Nat.le_of_not_lt hl)

/-- Settles O56: the error is that of the first malformed line, and an image has two bytes per instruction. -/
theorem assemblerNumbersLines : Obligations.AssemblerNumbersLines := by
  refine ⟨fun text n => ?_, fun text bytes => assemble_length_le⟩
  rw [assemble_malformed_iff, parseLines_error_iff]
  constructor
  · rintro ⟨k, hk, hn⟩
    obtain ⟨hlt, hline, hbefore⟩ := List.findIdx?_eq_some_iff_getElem.1 hk
    obtain ⟨hne, hnone⟩ := malformedLine_iff.1 hline
    refine ⟨k, _, AsmError.malformed.inj hn, List.getElem?_eq_getElem hlt, hne, hnone, fun j l hj hl => ?_⟩
    obtain ⟨_, rfl⟩ := List.getElem?_eq_some_iff.1 hl
    exact not_malformedLine_iff.1 (hbefore j hj)
  · rintro ⟨k, line, rfl, hline, hne, hnone, hbefore⟩
    obtain ⟨hlt, rfl⟩ := List.getElem?_eq_some_iff.1 hline
    refine ⟨k, List.findIdx?_eq_some_iff_getElem.2 ⟨hlt, malformedLine_iff.2 ⟨hne, hnone⟩, fun j hj => ?_⟩, rfl⟩
    exact not_malformedLine_iff.2 (hbefore j _ hj (List.getElem?_eq_getElem (hj.trans hlt)))

/-- A text of one line that is not blank assembles to the bytes of that line's instruction. -/
theorem assemble_oneLine {line : Text} (hline : '\n' ∉ line) (hne : lineTokens line ≠ []) (bytes : List Byte) :
    assemble line = .ok bytes ↔ ∃ i, parseTokens (lineTokens line) = some i ∧ encodeBytes i = bytes := by
  unfold assemble
  rw [linesFrom_of_one [] line hline, List.nil_append]
  simp only [parseLines, hne, if_false]
  cases parseTokens (lineTokens line) <;> simp [maxInstructions]

/-! ## The tokens of a canonical text (R89, R96) -/

/-- The character is in upper case, and neither a separator nor a comma. -/
def tokenChar (c : Char) : Bool := !isSpace c && c != ',' && c != '\n' && c.toUpper == c

/-- A token that reading a line leaves as it is. -/
def plainToken (t : Text) : Bool := t != [] && t.all tokenChar

theorem plainToken_iff {t : Text} : plainToken t = true ↔ t ≠ [] ∧ ∀ c ∈ t, tokenChar c = true := by
  simp [plainToken]

theorem ne_nil_of_plain {t : Text} (h : plainToken t = true) : t ≠ [] := (plainToken_iff.1 h).1

/-- What holds of each character of a plain token. -/
theorem char_of_plain {t : Text} (h : plainToken t = true) {c : Char} (hc : c ∈ t) :
    isSpace c = false ∧ c ≠ ',' ∧ c ≠ '\n' ∧ c.toUpper = c := by
  simpa [tokenChar, and_assoc] using (plainToken_iff.1 h).2 c hc

theorem isSpace_of_plain {t : Text} (h : plainToken t = true) : ∀ c ∈ t, isSpace c = false := fun _ hc =>
  (char_of_plain h hc).1

theorem comma_notMem_of_plain {t : Text} (h : plainToken t = true) : ',' ∉ t := fun hc =>
  (char_of_plain h hc).2.1 rfl

theorem newline_notMem_of_plain {t : Text} (h : plainToken t = true) : '\n' ∉ t := fun hc =>
  (char_of_plain h hc).2.2.1 rfl

theorem map_toUpper_of_plain {t : Text} (h : plainToken t = true) : t.map Char.toUpper = t :=
  (List.map_congr_left fun _ hc => (char_of_plain h hc).2.2.2).trans (List.map_id t)

theorem trimComma_of_plain {t : Text} (h : plainToken t = true) : trimComma t = t :=
  if_neg fun hl => comma_notMem_of_plain h (List.mem_of_getLast? hl)

/-- A run of characters without a separator goes on to the token being read. -/
theorem tokensFrom_append (cur t rest : Text) (h : ∀ c ∈ t, isSpace c = false) :
    tokensFrom cur (t ++ rest) = tokensFrom (cur ++ t) rest := by
  induction t generalizing cur with
  | nil => simp
  | cons c t ih =>
    obtain ⟨hc, ht⟩ := List.forall_mem_cons.1 h
    rw [List.cons_append, tokensFrom, if_neg (Bool.eq_false_iff.1 hc), ih _ ht, List.append_assoc,
      List.singleton_append]

/-- A run of characters up to a space is the first token of its line. -/
theorem lineTokens_append_space {t : Text} (rest : Text) (hne : t ≠ []) (h : ∀ c ∈ t, isSpace c = false) :
    lineTokens (t ++ ' ' :: rest) = trimComma (t.map Char.toUpper) :: lineTokens rest := by
  have hsp : isSpace ' ' = true := rfl
  rw [lineTokens, tokensFrom_append [] t _ h, List.nil_append, tokensFrom, if_pos hsp, if_neg hne]
  rfl

theorem lineTokens_of_plain {t : Text} (h : plainToken t = true) : lineTokens t = [t] := by
  have ht := tokensFrom_append [] t [] (isSpace_of_plain h)
  rw [List.append_nil, List.nil_append, tokensFrom, if_neg (ne_nil_of_plain h)] at ht
  rw [lineTokens, ht, List.map_singleton, map_toUpper_of_plain h, trimComma_of_plain h]

/-- Operands joined by commas and spaces are read as those operands. -/
theorem lineTokens_joinOperands (ts : List Text) (h : ∀ t ∈ ts, plainToken t = true) :
    lineTokens (joinOperands ts) = ts := by
  induction ts with
  | nil => rfl
  | cons t rest ih =>
    obtain ⟨ht, hrest⟩ := List.forall_mem_cons.1 h
    cases rest with
    | nil => exact lineTokens_of_plain ht
    | cons u rest =>
      have hsp : ∀ c ∈ t ++ [','], isSpace c = false :=
        List.forall_mem_append.2 ⟨isSpace_of_plain ht, List.forall_mem_singleton.2 rfl⟩
      have hjoin : joinOperands (t :: u :: rest) = (t ++ [',']) ++ ' ' :: joinOperands (u :: rest) := by
        simp [joinOperands]
      have hclean : trimComma ((t ++ [',']).map Char.toUpper) = t := by
        rw [List.map_append, map_toUpper_of_plain ht]
        simp [trimComma]
      rw [hjoin, lineTokens_append_space _ (by simp) hsp, hclean, ih hrest]

/-- Canonical text is read as the tokens it was joined from. -/
theorem lineTokens_joinTokens (ts : List Text) (h : ∀ t ∈ ts, plainToken t = true) :
    lineTokens (joinTokens ts) = ts := by
  cases ts with
  | nil => rfl
  | cons m operands =>
    obtain ⟨hm, hops⟩ := List.forall_mem_cons.1 h
    cases operands with
    | nil => exact lineTokens_of_plain hm
    | cons t rest =>
      have hjoin : joinTokens (m :: t :: rest) = m ++ ' ' :: joinOperands (t :: rest) := by simp [joinTokens]
      rw [hjoin, lineTokens_append_space _ (ne_nil_of_plain hm) (isSpace_of_plain hm), map_toUpper_of_plain hm,
        trimComma_of_plain hm, lineTokens_joinOperands _ hops]

theorem mem_joinOperands {c : Char} {ts : List Text} (h : c ∈ joinOperands ts) :
    (∃ t ∈ ts, c ∈ t) ∨ c = ',' ∨ c = ' ' := by
  induction ts with
  | nil => simp [joinOperands] at h
  | cons t rest ih =>
    cases rest with
    | nil => exact .inl ⟨t, List.mem_cons_self, h⟩
    | cons u rest =>
      simp only [joinOperands, List.mem_append, List.mem_cons, List.not_mem_nil, or_false] at h
      rcases h with (h | h) | h
      · exact .inl ⟨t, List.mem_cons_self, h⟩
      · exact .inr h
      · exact (ih h).imp_left fun ⟨v, hv, hc⟩ => ⟨v, List.mem_cons_of_mem t hv, hc⟩

/-- Canonical text is one line. -/
theorem newline_notMem_joinTokens {ts : List Text} (h : ∀ t ∈ ts, plainToken t = true) : '\n' ∉ joinTokens ts := by
  have hplain : ∀ t ∈ ts, '\n' ∉ t := fun t ht => newline_notMem_of_plain (h t ht)
  cases ts with
  | nil => simp [joinTokens]
  | cons m operands =>
    obtain ⟨hm, hops⟩ := List.forall_mem_cons.1 hplain
    cases operands with
    | nil => exact hm
    | cons t rest =>
      have hjoin : '\n' ∉ joinOperands (t :: rest) := fun hc => by
        rcases mem_joinOperands hc with ⟨u, hu, hc⟩ | hc | hc
        · exact hops u hu hc
        · exact absurd hc (by decide)
        · exact absurd hc (by decide)
      simp [joinTokens, hm, hjoin]

/-! ## Numbers and their digits (R91, R97) -/

@[simp] theorem tokenChar_hexChar (d : Nibble) : tokenChar (hexChar d) = true := by
  revert d; decide

theorem hexChar_zero : hexChar 0x0#4 = '0' := rfl

theorem hexChar_ne_zero {d : Nibble} (h : d ≠ 0x0#4) : hexChar d ≠ '0' := by
  revert d; decide

theorem stripZeros_zero (c : Char) (rest : Text) : stripZeros ('0' :: c :: rest) = stripZeros (c :: rest) := rfl

theorem stripZeros_of_ne {c : Char} (rest : Text) (h : c ≠ '0') : stripZeros (c :: rest) = c :: rest := by
  simp [stripZeros, h]

theorem stripZeros_singleton (c : Char) : stripZeros [c] = [c] := by
  simp [stripZeros]

theorem renderByte_append (hi lo : Nibble) : renderByte (hi ++ lo) = '#' :: stripZeros [hexChar hi, hexChar lo] := by
  rw [renderByte, BitVec.extractLsb'_append_eq_left, BitVec.extractLsb'_append_eq_right]

theorem renderAddr_append (hi mid lo : Nibble) :
    renderAddr (hi ++ mid ++ lo) = stripZeros [hexChar hi, hexChar mid, hexChar lo] := by
  have hhi : (hi ++ mid ++ lo).extractLsb' 8 4 = hi :=
    (BitVec.extractLsb'_append_eq_of_le (by decide)).trans BitVec.extractLsb'_append_eq_left
  have hmid : (hi ++ mid ++ lo).extractLsb' 4 4 = mid :=
    (BitVec.extractLsb'_append_eq_of_le (by decide)).trans BitVec.extractLsb'_append_eq_right
  rw [renderAddr, hhi, hmid, BitVec.extractLsb'_append_eq_right]

/-- An address is its three digits. -/
theorem exists_nibbles (a : Addr) : ∃ hi mid lo : Nibble, a = hi ++ mid ++ lo :=
  ⟨(a.extractLsb' 4 8).extractLsb' 4 4, (a.extractLsb' 4 8).extractLsb' 0 4, a.extractLsb' 0 4, by
    rw [BitVec.extractLsb'_append_extractLsb', BitVec.extractLsb'_append_extractLsb']⟩

/-- Whichever leading digits were zeros, the ones left read back as the address. -/
@[simp] theorem parseAddr_renderAddr (a : Addr) : parseAddr (renderAddr a) = some a := by
  obtain ⟨hi, mid, lo, rfl⟩ := exists_nibbles a
  rw [renderAddr_append]
  by_cases hhi : hi = 0x0#4
  · rw [hhi, hexChar_zero, stripZeros_zero]
    by_cases hmid : mid = 0x0#4
    · rw [hmid, hexChar_zero, stripZeros_zero, stripZeros_singleton]
      simp [parseAddr]
    · rw [stripZeros_of_ne _ (hexChar_ne_zero hmid)]
      simp [parseAddr]
  · rw [stripZeros_of_ne _ (hexChar_ne_zero hhi)]
    simp [parseAddr]

/-! ## The canonical form of an operand (R98) -/

theorem canonicalOperand_digits (ds : List Nibble) :
    canonicalOperand (ds.map hexChar) = stripZeros (ds.map hexChar) := by
  cases ds with
  | nil => rfl
  | cons d ds =>
    have hd : hexChar d ≠ '#' := by
      revert d; decide
    have hall : ((d :: ds).map hexChar).all (fun c => (hexDigit c).isSome) = true := by simp
    unfold canonicalOperand
    split
    next digits heq => exact absurd (List.cons.inj heq).1 hd
    next => exact if_pos hall

theorem canonicalOperand_of_parseReg {t : Text} {x : Reg} (h : parseReg t = some x) :
    canonicalOperand t = renderReg x := by
  rw [eq_renderReg_of_parseReg h]
  rfl

theorem canonicalOperand_of_parseNibble {t : Text} {n : Nibble} (h : parseNibble t = some n) :
    canonicalOperand t = renderNibble n := by
  unfold parseNibble at h
  split at h
  · rw [eq_hexChar_of_hexDigit h]
    exact (canonicalOperand_digits [n]).trans (stripZeros_singleton _)
  · cases h

theorem canonicalOperand_of_parseByte {t : Text} {b : Byte} (h : parseByte t = some b) :
    canonicalOperand t = renderByte b := by
  unfold parseByte at h
  split at h
  · obtain ⟨lo, hlo, rfl⟩ := Option.map_eq_some_iff.1 h
    rw [eq_hexChar_of_hexDigit hlo, renderByte_append]
    rfl
  · split at h <;> cases h
    next hhi hlo =>
    rw [eq_hexChar_of_hexDigit hhi, eq_hexChar_of_hexDigit hlo, renderByte_append]
    rfl
  · cases h

theorem canonicalOperand_of_parseAddr {t : Text} {a : Addr} (h : parseAddr t = some a) :
    canonicalOperand t = renderAddr a := by
  unfold parseAddr at h
  split at h
  · obtain ⟨lo, hlo, rfl⟩ := Option.map_eq_some_iff.1 h
    rw [eq_hexChar_of_hexDigit hlo]
    exact (canonicalOperand_digits [lo]).trans (renderAddr_append 0x0#4 0x0#4 lo).symm
  · split at h <;> cases h
    next mid lo hmid hlo =>
    rw [eq_hexChar_of_hexDigit hmid, eq_hexChar_of_hexDigit hlo]
    exact (canonicalOperand_digits [mid, lo]).trans (renderAddr_append 0x0#4 mid lo).symm
  · split at h <;> cases h
    next hi mid lo hhi hmid hlo =>
    rw [eq_hexChar_of_hexDigit hhi, eq_hexChar_of_hexDigit hmid, eq_hexChar_of_hexDigit hlo, renderAddr_append]
    exact canonicalOperand_digits [hi, mid, lo]
  · cases h

/-! ## What parses is rendered canonically (R93, R98) -/

/-- The instruction is well-formed, and its tokens are the mnemonic `m` and the canonical forms of the operands. -/
def RendersAs (m : Text) (operands : List Text) (i : Instr) : Prop :=
  i.wf = true ∧ renderTokens i = m :: operands.map canonicalOperand

section Forms

variable {m a b c : Text} {operands : List Text} {i : Instr}

/-- A form with one register, at the place `k` puts it among the operands. -/
theorem rendersAs_formReg {f : Reg → Instr} (k : Text → List Text)
    (hf : ∀ x, (f x).wf = true ∧ renderTokens (f x) = m :: k (renderReg x))
    (hk : operands.map canonicalOperand = k (canonicalOperand a)) (h : formReg f a = some i) :
    RendersAs m operands i := by
  obtain ⟨x, ha, rfl⟩ := formReg_cases h
  rw [RendersAs, hk, canonicalOperand_of_parseReg ha]
  exact hf x

/-- A form with an address, at the place `k` puts it among the operands. -/
theorem rendersAs_formAddr {f : Addr → Instr} (k : Text → List Text)
    (hf : ∀ nnn, i = f nnn → (f nnn).wf = true ∧ renderTokens (f nnn) = m :: k (renderAddr nnn))
    (hk : operands.map canonicalOperand = k (canonicalOperand a)) (h : formAddr f a = some i) :
    RendersAs m operands i := by
  obtain ⟨nnn, ha, rfl⟩ := formAddr_cases h
  rw [RendersAs, hk, canonicalOperand_of_parseAddr ha]
  exact hf nnn rfl

theorem rendersAs_formRegReg {f : Reg → Reg → Instr}
    (hf : ∀ x y, (f x y).wf = true ∧ renderTokens (f x y) = [m, renderReg x, renderReg y])
    (h : formRegReg f a b = some i) : RendersAs m [a, b] i := by
  obtain ⟨x, y, ha, hb, rfl⟩ := formRegReg_cases h
  rw [RendersAs, List.map_cons, List.map_singleton, canonicalOperand_of_parseReg ha, canonicalOperand_of_parseReg hb]
  exact hf x y

theorem rendersAs_formRegByte {f : Reg → Byte → Instr}
    (hf : ∀ x nn, (f x nn).wf = true ∧ renderTokens (f x nn) = [m, renderReg x, renderByte nn])
    (h : formRegByte f a b = some i) : RendersAs m [a, b] i := by
  obtain ⟨x, nn, ha, hb, rfl⟩ := formRegByte_cases h
  rw [RendersAs, List.map_cons, List.map_singleton, canonicalOperand_of_parseReg ha, canonicalOperand_of_parseByte hb]
  exact hf x nn

/-- A mnemonic whose second operand is a byte or a register. -/
theorem rendersAs_formRegByte_or_formRegReg {f : Reg → Byte → Instr} {g : Reg → Reg → Instr}
    (hf : ∀ x nn, (f x nn).wf = true ∧ renderTokens (f x nn) = [m, renderReg x, renderByte nn])
    (hg : ∀ x y, (g x y).wf = true ∧ renderTokens (g x y) = [m, renderReg x, renderReg y])
    (h : (formRegByte f a b).or (formRegReg g a b) = some i) : RendersAs m [a, b] i := by
  rcases Option.or_eq_some_iff.1 h with h | ⟨_, h⟩
  · exact rendersAs_formRegByte hf h
  · exact rendersAs_formRegReg hg h

theorem rendersAs_formRegRegNibble {f : Reg → Reg → Nibble → Instr}
    (hf : ∀ x y n, (f x y n).wf = true ∧ renderTokens (f x y n) = [m, renderReg x, renderReg y, renderNibble n])
    (h : formRegRegNibble f a b c = some i) : RendersAs m [a, b, c] i := by
  obtain ⟨x, y, n, ha, hb, hc, rfl⟩ := formRegRegNibble_cases h
  rw [RendersAs, List.map_cons, List.map_cons, List.map_singleton, canonicalOperand_of_parseReg ha,
    canonicalOperand_of_parseReg hb, canonicalOperand_of_parseNibble hc]
  exact hf x y n

theorem parse0_rendersAs (h : parse0 m = some i) : RendersAs m [] i := by
  unfold parse0 at h
  split_ifs at h <;> subst_vars <;> cases h <;> exact ⟨rfl, rfl⟩

theorem parse1_rendersAs (h : parse1 m a = some i) : RendersAs m [a] i := by
  unfold parse1 at h
  split_ifs at h <;> subst_vars
  · obtain ⟨h, hwf⟩ := Option.filter_eq_some_iff.1 h
    exact rendersAs_formAddr (fun t => [t]) (fun _ hi => ⟨hi ▸ hwf, rfl⟩) rfl h
  · exact rendersAs_formAddr (fun t => [t]) (fun _ _ => ⟨rfl, rfl⟩) rfl h
  · exact rendersAs_formAddr (fun t => [t]) (fun _ _ => ⟨rfl, rfl⟩) rfl h
  · exact rendersAs_formReg (fun t => [t]) (fun _ => ⟨rfl, rfl⟩) rfl h
  · exact rendersAs_formReg (fun t => [t]) (fun _ => ⟨rfl, rfl⟩) rfl h

/-- LD: a keyword is its own canonical form. -/
theorem parseLd_rendersAs (h : parseLd a b = some i) : RendersAs ['L', 'D'] [a, b] i := by
  unfold parseLd at h
  split_ifs at h <;> subst_vars
  · exact rendersAs_formAddr (fun t => [['I'], t]) (fun _ _ => ⟨rfl, rfl⟩) rfl h
  · exact rendersAs_formReg (fun t => [['D', 'T'], t]) (fun _ => ⟨rfl, rfl⟩) rfl h
  · exact rendersAs_formReg (fun t => [['S', 'T'], t]) (fun _ => ⟨rfl, rfl⟩) rfl h
  · exact rendersAs_formReg (fun t => [['F'], t]) (fun _ => ⟨rfl, rfl⟩) rfl h
  · exact rendersAs_formReg (fun t => [['B'], t]) (fun _ => ⟨rfl, rfl⟩) rfl h
  · exact rendersAs_formReg (fun t => [['[', 'I', ']'], t]) (fun _ => ⟨rfl, rfl⟩) rfl h
  · exact rendersAs_formReg (fun t => [t, ['D', 'T']]) (fun _ => ⟨rfl, rfl⟩) rfl h
  · exact rendersAs_formReg (fun t => [t, ['K']]) (fun _ => ⟨rfl, rfl⟩) rfl h
  · exact rendersAs_formReg (fun t => [t, ['[', 'I', ']']]) (fun _ => ⟨rfl, rfl⟩) rfl h
  · exact rendersAs_formRegByte_or_formRegReg (fun _ _ => ⟨rfl, rfl⟩) (fun _ _ => ⟨rfl, rfl⟩) h

/-- One mnemonic of a chain of tests. -/
theorem rendersAs_ite {k : Text} {o o' : Option Instr} (hk : o = some i → RendersAs k operands i)
    (ho : o' = some i → RendersAs m operands i) (h : (if m = k then o else o') = some i) : RendersAs m operands i := by
  split at h
  next hm => exact hm ▸ hk h
  next => exact ho h

theorem parse2_rendersAs (h : parse2 m a b = some i) : RendersAs m [a, b] i := by
  unfold parse2 at h
  refine rendersAs_ite parseLd_rendersAs (rendersAs_ite (fun hadd => ?_) ?_) h
  · split_ifs at hadd with ha
    · exact ha ▸ rendersAs_formReg (fun t => [['I'], t]) (fun _ => ⟨rfl, rfl⟩) rfl hadd
    · exact rendersAs_formRegByte_or_formRegReg (fun _ _ => ⟨rfl, rfl⟩) (fun _ _ => ⟨rfl, rfl⟩) hadd
  iterate 2
    refine rendersAs_ite (rendersAs_formRegByte_or_formRegReg (fun _ _ => ⟨rfl, rfl⟩) fun _ _ => ⟨rfl, rfl⟩) ?_
  iterate 7
    refine rendersAs_ite (rendersAs_formRegReg fun _ _ => ⟨rfl, rfl⟩) ?_
  refine rendersAs_ite (rendersAs_formRegByte fun _ _ => ⟨rfl, rfl⟩) (rendersAs_ite (fun hjp => ?_) nofun)
  split_ifs at hjp with ha
  exact ha ▸ rendersAs_formAddr (fun t => [['V', '0'], t]) (fun _ _ => ⟨rfl, rfl⟩) rfl hjp

theorem parse3_rendersAs (h : parse3 m a b c = some i) : RendersAs m [a, b, c] i := by
  unfold parse3 at h
  split_ifs at h
  subst_vars
  exact rendersAs_formRegRegNibble (fun _ _ _ => ⟨rfl, rfl⟩) h

end Forms

/-- A line that matches a form has a mnemonic, and is rendered canonically. -/
theorem parseTokens_rendersAs {ts : List Text} {i : Instr} (h : parseTokens ts = some i) :
    ∃ m operands, ts = m :: operands ∧ RendersAs m operands i := by
  unfold parseTokens at h
  split at h
  · exact ⟨_, _, rfl, parse0_rendersAs h⟩
  · exact ⟨_, _, rfl, parse1_rendersAs h⟩
  · exact ⟨_, _, rfl, parse2_rendersAs h⟩
  · exact ⟨_, _, rfl, parse3_rendersAs h⟩
  · cases h

theorem canonicalize_of_lineTokens {line m : Text} {operands : List Text} (h : lineTokens line = m :: operands) :
    canonicalize line = joinTokens (m :: operands.map canonicalOperand) := by
  rw [canonicalize, h]

/-! ## What is rendered parses (R96, R98) -/

@[simp] theorem formReg_render (f : Reg → Instr) (x : Reg) : formReg f (renderReg x) = some (f x) := by
  simp [formReg]

@[simp] theorem formAddr_render (f : Addr → Instr) (nnn : Addr) : formAddr f (renderAddr nnn) = some (f nnn) := by
  simp [formAddr]

@[simp] theorem formRegReg_render (f : Reg → Reg → Instr) (x y : Reg) :
    formRegReg f (renderReg x) (renderReg y) = some (f x y) := by
  simp [formRegReg]

@[simp] theorem formRegByte_render (f : Reg → Byte → Instr) (x : Reg) (nn : Byte) :
    formRegByte f (renderReg x) (renderByte nn) = some (f x nn) := by
  simp [formRegByte]

@[simp] theorem formRegByte_renderReg (f : Reg → Byte → Instr) (a : Text) (y : Reg) :
    formRegByte f a (renderReg y) = none := by
  have hy : parseByte (renderReg y) = none := rfl
  simp [formRegByte, hy]

@[simp] theorem formRegRegNibble_render (f : Reg → Reg → Nibble → Instr) (x y : Reg) (n : Nibble) :
    formRegRegNibble f (renderReg x) (renderReg y) (renderNibble n) = some (f x y n) := by
  simp [formRegRegNibble]

/-- A register is no keyword. -/
@[simp] theorem renderReg_ne {c : Char} (x : Reg) (t : Text) (h : c ≠ 'V') : renderReg x ≠ c :: t := fun he =>
  h (List.cons.inj he).1.symm

/-- A byte is no keyword. -/
@[simp] theorem renderByte_ne {c : Char} (nn : Byte) (t : Text) (h : c ≠ '#') : renderByte nn ≠ c :: t := fun he =>
  h (List.cons.inj he).1.symm

/-- The text of a well-formed instruction is a form of that instruction. -/
theorem parseTokens_renderTokens {i : Instr} (h : i.wf = true) : parseTokens (renderTokens i) = some i := by
  cases i with
  | cls | ret => rfl
  | sys nnn => simp [renderTokens, parseTokens, parse1, Option.filter, h]
  | _ => simp [renderTokens, parseTokens, parse1, parse2, parse3, parseLd]

theorem mem_stripZeros {c : Char} {t : Text} (h : c ∈ stripZeros t) : c ∈ t := by
  induction t using stripZeros.induct with
  | case1 d rest ih => exact List.mem_cons_of_mem _ (ih h)
  | case2 t ht =>
    rwa [stripZeros] at h
    exact ht

theorem stripZeros_ne_nil {t : Text} (h : t ≠ []) : stripZeros t ≠ [] := by
  induction t using stripZeros.induct with
  | case1 d rest ih => exact ih (List.cons_ne_nil d rest)
  | case2 t ht =>
    rwa [stripZeros]
    exact ht

theorem plainToken_stripZeros {t : Text} (h : plainToken t = true) : plainToken (stripZeros t) = true := by
  obtain ⟨hne, hall⟩ := plainToken_iff.1 h
  exact plainToken_iff.2 ⟨stripZeros_ne_nil hne, fun c hc => hall c (mem_stripZeros hc)⟩

theorem plainToken_cons {c : Char} {t : Text} (hc : tokenChar c = true) (h : plainToken t = true) :
    plainToken (c :: t) = true :=
  plainToken_iff.2 ⟨List.cons_ne_nil c t, List.forall_mem_cons.2 ⟨hc, (plainToken_iff.1 h).2⟩⟩

@[simp] theorem plainToken_renderNibble (n : Nibble) : plainToken (renderNibble n) = true := by
  simp [plainToken, renderNibble]

@[simp] theorem plainToken_renderReg (x : Reg) : plainToken (renderReg x) = true :=
  plainToken_cons rfl (plainToken_renderNibble x)

@[simp] theorem plainToken_renderByte (nn : Byte) : plainToken (renderByte nn) = true :=
  plainToken_cons rfl (plainToken_stripZeros (by simp [plainToken]))

@[simp] theorem plainToken_renderAddr (nnn : Addr) : plainToken (renderAddr nnn) = true :=
  plainToken_stripZeros (by simp [plainToken])

/-- Mnemonics, keywords and operands are read as they are written. -/
theorem plainToken_of_mem_renderTokens (i : Instr) : ∀ t ∈ renderTokens i, plainToken t = true := by
  cases i <;> simp [renderTokens] <;> decide

theorem disassemble_ok_iff {w : Word} {text : Text} :
    disassemble w = .ok text ↔ ∃ i, decode w = .ok i ∧ joinTokens (renderTokens i) = text := by
  unfold disassemble
  cases decode w <;> simp

/-- Settles O55: a line that parses is rendered canonically, and canonical text is read as the tokens that were
rendered. -/
theorem textRoundTrip : Obligations.TextRoundTrip := by
  constructor
  · intro line bytes hline hne h
    obtain ⟨i, hi, rfl⟩ := (assemble_oneLine hline hne bytes).1 h
    obtain ⟨m, operands, hts, hwf, hrender⟩ := parseTokens_rendersAs hi
    refine ⟨encode i, rfl, disassemble_ok_iff.2 ⟨i, decode_encode hwf, ?_⟩⟩
    rw [hrender, canonicalize_of_lineTokens hts]
  · intro w text h
    obtain ⟨i, hi, rfl⟩ := disassemble_ok_iff.1 h
    have hplain := plainToken_of_mem_renderTokens i
    have htokens := lineTokens_joinTokens _ hplain
    have hparse := parseTokens_renderTokens (wf_of_decode hi)
    have hne : renderTokens i ≠ [] := fun h0 => by
      rw [h0] at hparse
      cases hparse
    refine (assemble_oneLine (newline_notMem_joinTokens hplain) (by rwa [htokens]) _).2 ⟨i, by rwa [htokens], ?_⟩
    rw [encodeBytes, Machine.encode_of_decode hi]

end Sys2Proof

namespace Sys2Proof

/-! The family of control flow: the rows a mask and a pattern select, jumps, calls, returns and skips. -/

/-! ## The rows of a mask and a pattern (R74, R75) -/

/-- A field whose bits the mask selects is the pattern's field. -/
theorem extractLsb'_of_mask {w mask p : Word} {start k : Nat} (h : w &&& mask = p)
    (hm : mask.extractLsb' start k = BitVec.allOnes k) : w.extractLsb' start k = p.extractLsb' start k := by
  rw [← h, BitVec.extractLsb'_and, hm, BitVec.and_allOnes]

theorem decode_of_encode_eq {w : Word} {i : Instr} (hi : i.wf = true) (h : encode i = w) : decode w = .ok i :=
  h ▸ decode_encode hi

open Machine (DecodesAs)

/-- A row of format A. -/
theorem decodesAs_nnn {p : Word} {f : Addr → Instr}
    (hf : ∀ nnn, (f nnn).wf = true ∧ encode (f nnn) = packNNN (op p) nnn) :
    DecodesAs 0xF000#16 p fun w => f (fieldNNN w) := by
  intro w h
  have ho : op w = op p := extractLsb'_of_mask h rfl
  obtain ⟨hwf, he⟩ := hf (fieldNNN w)
  exact decode_of_encode_eq hwf (he.trans (ho ▸ packNNN_fields w))

/-- A row of format XB. -/
theorem decodesAs_xnn {p : Word} {f : Reg → Byte → Instr}
    (hf : ∀ x nn, (f x nn).wf = true ∧ encode (f x nn) = packXNN (op p) x nn) :
    DecodesAs 0xF000#16 p fun w => f (fieldX w) (fieldNN w) := by
  intro w h
  have ho : op w = op p := extractLsb'_of_mask h rfl
  obtain ⟨hwf, he⟩ := hf (fieldX w) (fieldNN w)
  exact decode_of_encode_eq hwf (he.trans (ho ▸ packXNN_fields w))

/-- A row of format XY whose bottom nibble is fixed. -/
theorem decodesAs_xy {p : Word} {f : Reg → Reg → Instr}
    (hf : ∀ x y, (f x y).wf = true ∧ encode (f x y) = packXYN (op p) x y (fieldN p)) :
    DecodesAs 0xF00F#16 p fun w => f (fieldX w) (fieldY w) := by
  intro w h
  have ho : op w = op p := extractLsb'_of_mask h rfl
  have hn : fieldN w = fieldN p := extractLsb'_of_mask h rfl
  obtain ⟨hwf, he⟩ := hf (fieldX w) (fieldY w)
  exact decode_of_encode_eq hwf (he.trans (ho ▸ hn ▸ packXYN_fields w))

end Sys2Proof

namespace Sys2Proof.Machine

/-! ## SYS and the jumps (R111, R112, R118) -/

/-- Settles O27: the two tests of family 0 fail, and executing SYS answers the state it is given. -/
theorem sysHasNoEffect : Obligations.SysHasNoEffect := by
  refine ⟨fun w ho hcls hret => ?_, fun _ _ => rfl⟩
  simp only [decode, ho, decodeFamily0, if_neg hcls, if_neg hret]

/-- The address of JP V0 does not wrap: it is at most 0x10FE (R118). -/
theorem toWord_add_zeroExtend_toNat (nnn : Addr) (b : Byte) :
    (nnn.toWord + b.zeroExtend 16).toNat = nnn.toNat + b.toNat := by
  have hb : (b.zeroExtend 16).toNat = b.toNat := BitVec.toNat_setWidth_of_le (by decide)
  have hn := Addr.toWord_toNat nnn
  rw [BitVec.toNat_add_of_lt (by omega), hn, hb]

/-- Settles O28: either jump is one write of PC. -/
theorem jumpsSetPc : Obligations.JumpsSetPc := by
  refine ⟨decodesAs_nnn fun _ => ⟨rfl, rfl⟩, decodesAs_nnn fun _ => ⟨rfl, rfl⟩, fun nnn s => ?_, fun nnn s => ?_⟩
  · exact ⟨_, rfl, Addr.toWord_toNat nnn, fun _ _ => rfl, by simp⟩
  · exact ⟨_, rfl, toWord_add_zeroExtend_toNat nnn _, fun _ _ => rfl, by simp⟩

/-! ## Calls and returns (R110, R113) -/

/-- An instruction whose execute step is a raise raises exactly that error. -/
theorem raisesExactly_of_exec_eq {code : ErrorCode} {i : Instr} {s : State}
    (h : exec i s = .next (raiseError code (encode i) s)) : RaisesExactly code i s [] :=
  ⟨_, h, rfl, fun _ _ => rfl, by simp⟩

theorem exec_call_of_room (nnn : Addr) {s : State} (h : s.stack.length < stackDepth) :
    exec (.call nnn) s = .next ((s.setStack (s.pc :: s.stack)).setPc nnn.toWord) := by
  simp only [exec, execCall, pushWord, if_pos h]

theorem exec_call_of_full (nnn : Addr) {s : State} (h : stackDepth ≤ s.stack.length) :
    exec (.call nnn) s = .next (raiseError .stackOverflow (encode (.call nnn)) s) := by
  simp only [exec, execCall, pushWord, if_neg (Nat.not_lt.2 h)]

theorem exec_ret_of_cons {s : State} {w : Word} {rest : List Word} (h : s.stack = w :: rest) :
    exec .ret s = .next ((s.setStack rest).setPc w) := by
  simp only [exec, execRet, popWord, h]

theorem exec_ret_of_fault {s : State} (h : s.stack = []) (hu : s.underflowPolicy = .fault) :
    exec .ret s = .next (raiseError .stackUnderflow (encode .ret) s) := by
  simp only [exec, execRet, popWord, h, hu]

theorem exec_ret_of_noop {s : State} (h : s.stack = []) (hu : s.underflowPolicy = .noop) :
    exec .ret s = .next s := by
  simp only [exec, execRet, popWord, h, hu]

/-- Settles O29: a stack with room takes PC, a full one raises. -/
theorem callPushesTheReturnAddress : Obligations.CallPushesTheReturnAddress := by
  refine ⟨decodesAs_nnn fun _ => ⟨rfl, rfl⟩, fun nnn s h => ?_, fun nnn s h => ?_⟩
  · exact ⟨_, exec_call_of_room nnn h, Addr.toWord_toNat nnn, rfl, fun _ _ => rfl, by simp⟩
  · exact raisesExactly_of_exec_eq (exec_call_of_full nnn h)

/-- Settles O30: the pop writes the stack and PC. -/
theorem retPopsTheReturnAddress : Obligations.RetPopsTheReturnAddress :=
  ⟨rfl, fun _ _ _ h => ⟨_, exec_ret_of_cons h, rfl, rfl, fun _ _ => rfl, by simp⟩⟩

/-- Settles O31: by the two values of the policy. -/
theorem retOnTheEmptyStack : Obligations.RetOnTheEmptyStack :=
  ⟨fun _ h hu => raisesExactly_of_exec_eq (exec_ret_of_fault h hu), fun _ => exec_ret_of_noop⟩

/-! ## Skips (R114 to R117, R120) -/

/-- An instruction whose execute step is a skip on the condition `P` moves PC on by 2 exactly when `P` holds. -/
theorem exec_skip {i : Instr} {s : State} {c : Bool} {P : Prop} [Decidable P] (h : exec i s = .next (skipIf c s))
    (hc : c = true ↔ P) : ∃ t, exec i s = .next t
      ∧ t.pc = (if P then s.pc + 2#16 else s.pc) ∧ KeepsRegsBut [] s t ∧ KeepsBut [.pc] s t := by
  refine ⟨_, h, ?_, fun r _ => skipIf_reg c s r, by simp⟩
  simp only [skipIf_pc, hc]

/-- Settles O32: each is a skip on its comparison. -/
theorem skipsOnAnImmediate : Obligations.SkipsOnAnImmediate :=
  ⟨decodesAs_xnn fun _ _ => ⟨rfl, rfl⟩, decodesAs_xnn fun _ _ => ⟨rfl, rfl⟩,
    fun _ _ _ => exec_skip rfl beq_iff_eq, fun _ _ _ => exec_skip rfl bne_iff_ne⟩

theorem decode_of_fieldN_ne_zero {w : Word} (ho : op w = 0x5#4 ∨ op w = 0x9#4) (hn : fieldN w ≠ 0x0#4) :
    decode w = .error .unsupportedOpcode := by
  rcases ho with ho | ho
  · simp only [decode, ho, decodeFamily5, if_neg hn]
  · simp only [decode, ho, decodeFamily9, if_neg hn]

/-- Settles O33: each is a skip on its comparison, and families 5 and 9 test n. -/
theorem skipsOnTwoRegisters : Obligations.SkipsOnTwoRegisters :=
  ⟨decodesAs_xy fun _ _ => ⟨rfl, rfl⟩, decodesAs_xy fun _ _ => ⟨rfl, rfl⟩, fun _ => decode_of_fieldN_ne_zero,
    fun _ _ _ => exec_skip rfl beq_iff_eq, fun _ _ _ => exec_skip rfl bne_iff_ne⟩

end Sys2Proof.Machine

namespace Sys2Proof.Machine

/-! The family of the ALU: loads, arithmetic, logic, shifts and the random byte. -/

/-! ## Registers kept by a register write -/

section KeepsRegs

variable {l : List Reg} {s u : State}

@[simp] theorem keepsRegsBut_refl : KeepsRegsBut l s s := fun _ _ => rfl

@[simp] theorem keepsRegsBut_setReg {x : Reg} (b : Byte) (h : x ∈ l) :
    KeepsRegsBut l s (u.setReg x b) ↔ KeepsRegsBut l s u :=
  forall₂_congr fun r hr => by
    have hne : r ≠ x := fun he => hr (he ▸ h)
    rw [State.reg_setReg_of_ne u b hne]

@[simp] theorem keepsRegsBut_writeWithFlag {x : Reg} (r : Byte) (c : Bool)
    (hx : x ∈ l) (hf : Reg.vf ∈ l) : KeepsRegsBut l s (writeWithFlag u x r c) ↔ KeepsRegsBut l s u := by
  simp only [writeWithFlag, keepsRegsBut_setReg, hx, hf]

@[simp] theorem keepsRegsBut_drawByte : KeepsRegsBut l s (drawByte u).2 ↔ KeepsRegsBut l s u := Iff.rfl

end KeepsRegs

/-! ## A result and its flag (R27, R143) -/

/-- VF holds the flag even when it is the destination: it is written last (D3). -/
@[simp] theorem writeWithFlag_reg_vf (s : State) (x : Reg) (r : Byte) (c : Bool) :
    (writeWithFlag s x r c).reg Reg.vf = flagByte c := State.reg_setReg_self ..

theorem writeWithFlag_reg_dest {x : Reg} (h : x ≠ Reg.vf) (s : State) (r : Byte) (c : Bool) :
    (writeWithFlag s x r c).reg x = r := by
  rw [writeWithFlag_reg, if_neg h, if_pos rfl]

theorem flagByte_decide (P : Prop) [Decidable P] : flagByte (decide P) = if P then 1#8 else 0#8 := by
  simp only [flagByte, decide_eq_true_iff]

theorem flagByte_toNat (c : Bool) : (flagByte c).toNat = c.toNat := by cases c <;> rfl

/-- The bit SHR shifts out is the remainder of the halving (R138). -/
theorem shiftOutRight_toNat (a : Byte) : (shiftOutRight a).toNat = a.toNat % 2 := by
  rw [shiftOutRight, BitVec.getLsbD, Nat.toNat_testBit, pow_zero, Nat.div_one]

/-- The bit SHL shifts out is what doubling carries past 255 (R140). -/
theorem shiftOutLeft_toNat (a : Byte) : (shiftOutLeft a).toNat = a.toNat / 128 := by
  rw [shiftOutLeft, BitVec.getLsbD, Nat.toNat_testBit]
  omega

/-- The difference of two bytes is the exact one modulo 256 (R137, R139). -/
theorem toNat_sub_byte (a b : Byte) : ((a - b).toNat : Int) = ((a.toNat : Int) - b.toNat) % 256 := by
  rw [BitVec.toNat_sub]
  omega

/-- `RandomByte()` answers the free value of log entry 4 (R43). -/
theorem drawByte_fst (s : State) : (drawByte s).1 = Config.randomByte s.draws := rfl

/-! ## The instructions (R130 to R141) -/

/-- Settles O34: each is one register write. -/
theorem loadsAndImmediateAdd : Obligations.LoadsAndImmediateAdd := by
  refine ⟨decodesAs_xnn fun _ _ => ⟨rfl, rfl⟩, decodesAs_xnn fun _ _ => ⟨rfl, rfl⟩, decodesAs_xy fun _ _ => ⟨rfl, rfl⟩,
    fun x nn s => ⟨_, rfl, ?_, by simp, by simp⟩, fun x nn s => ⟨_, rfl, ?_, by simp, by simp⟩,
    fun x y s => ⟨_, rfl, ?_, by simp, by simp⟩⟩
  · exact State.reg_setReg_self s x nn
  · rw [State.reg_setReg_self, BitVec.toNat_add]
  · exact State.reg_setReg_self s x (s.reg y)

/-- Settles O35: each is one register write, of the operation on every bit. -/
theorem logicWritesNoFlag : Obligations.LogicWritesNoFlag := by
  refine ⟨decodesAs_xy fun _ _ => ⟨rfl, rfl⟩, decodesAs_xy fun _ _ => ⟨rfl, rfl⟩, decodesAs_xy fun _ _ => ⟨rfl, rfl⟩,
    fun x y s => ⟨_, rfl, fun k => ?_, by simp, by simp⟩, fun x y s => ⟨_, rfl, fun k => ?_, by simp, by simp⟩,
    fun x y s => ⟨_, rfl, fun k => ?_, by simp, by simp⟩⟩
  · rw [State.reg_setReg_self, BitVec.getLsbD_or]
  · rw [State.reg_setReg_self, BitVec.getLsbD_and]
  · rw [State.reg_setReg_self, BitVec.getLsbD_xor]

/-- Settles O36: the sum, and then its carry in VF. -/
theorem addSetsTheCarry : Obligations.AddSetsTheCarry := by
  refine ⟨decodesAs_xy fun _ _ => ⟨rfl, rfl⟩, fun x y s => ⟨_, rfl, ?_, fun hx => ?_, by simp, by simp⟩⟩
  · rw [writeWithFlag_reg_vf, carryOut, flagByte_decide]
  · rw [writeWithFlag_reg_dest hx, BitVec.toNat_add]

/-- An instruction that writes the difference `a - b` under its no-borrow flag. -/
theorem exec_difference {i : Instr} {x : Reg} {a b : Byte} {s : State}
    (h : exec i s = .next (writeWithFlag s x (a - b) (noBorrow a b))) : ∃ t, exec i s = .next t
      ∧ t.reg Reg.vf = (if a.toNat > b.toNat then 1#8 else 0#8)
      ∧ (x ≠ Reg.vf → ((t.reg x).toNat : Int) = ((a.toNat : Int) - b.toNat) % 256)
      ∧ KeepsRegsBut [x, Reg.vf] s t ∧ KeepsBut [] s t := by
  refine ⟨_, h, ?_, fun hx => ?_, by simp, by simp⟩
  · rw [writeWithFlag_reg_vf, noBorrow, flagByte_decide]
  · rw [writeWithFlag_reg_dest hx, toNat_sub_byte]

/-- Settles O37: SUBN is SUB with the operands exchanged. -/
theorem subtractionsSetNoBorrow : Obligations.SubtractionsSetNoBorrow :=
  ⟨decodesAs_xy fun _ _ => ⟨rfl, rfl⟩, decodesAs_xy fun _ _ => ⟨rfl, rfl⟩,
    fun _ _ _ => exec_difference rfl, fun _ _ _ => exec_difference rfl⟩

/-- Settles O38: the shifted register, and then the bit shifted out in VF. -/
theorem shiftsSetTheShiftedOutBit : Obligations.ShiftsSetTheShiftedOutBit := by
  refine ⟨decodesAs_xy fun _ _ => ⟨rfl, rfl⟩, decodesAs_xy fun _ _ => ⟨rfl, rfl⟩,
    fun x y s => ⟨_, rfl, ?_, fun hx => ?_, by simp, by simp⟩, fun x y s => ⟨_, rfl, ?_, fun hx => ?_, by simp, by simp⟩⟩
  · rw [writeWithFlag_reg_vf, flagByte_toNat, shiftOutRight_toNat]
  · rw [writeWithFlag_reg_dest hx, BitVec.toNat_ushiftRight, Nat.shiftRight_one]
  · rw [writeWithFlag_reg_vf, flagByte_toNat, shiftOutLeft_toNat]
  · rw [writeWithFlag_reg_dest hx, BitVec.toNat_shiftLeft, Nat.shiftLeft_eq, pow_one]

/-- Settles O39: a register write of the masked draw, on the state that has counted the draw. -/
theorem randomByteIsMasked : Obligations.RandomByteIsMasked := by
  refine ⟨decodesAs_xnn fun _ _ => ⟨rfl, rfl⟩, fun x nn s => ⟨_, rfl, fun k => ?_, rfl, by simp, by simp⟩⟩
  rw [State.reg_setReg_self, drawByte_fst, BitVec.getLsbD_and]

end Sys2Proof.Machine

namespace Sys2Proof

/-! The family of the index register and memory: the rows of format XS, the writers of I, and the block transfers. -/

/-- A row of format XS: the low byte is fixed. -/
theorem decodesAs_xs {p : Word} {f : Reg → Instr}
    (hf : ∀ x, (f x).wf = true ∧ encode (f x) = packXNN (op p) x (fieldNN p)) :
    Machine.DecodesAs 0xF0FF#16 p fun w => f (fieldX w) := by
  intro w h
  obtain ⟨hwf, he⟩ := hf (fieldX w)
  exact decode_of_encode_eq hwf (he.trans (op_of_mask_F0FF h ▸ fieldNN_of_mask_F0FF h ▸ packXNN_fields w))

end Sys2Proof

namespace Sys2Proof.Machine

/-! ## The index register (R150 to R152) -/

/-- The sum of ADD I wraps modulo 65536, not 4096 (R151). -/
theorem add_zeroExtend_toNat (i : Word) (b : Byte) :
    (i + b.zeroExtend 16).toNat = (i.toNat + b.toNat) % 65536 := by
  have hb : (b.zeroExtend 16).toNat = b.toNat := BitVec.toNat_setWidth_of_le (by decide)
  rw [BitVec.toNat_add, hb]

/-- The address of a glyph is at most 5 * 255: the product does not wrap (R152). -/
theorem glyphAddr_toNat (b : Byte) : (glyphAddr b).toNat = b.toNat * 5 := by
  rw [glyphAddr, BitVec.toNat_ofNat]
  omega

/-- An instruction whose execute step is one write of I changes nothing else. -/
theorem exec_setI {i : Instr} {s : State} {w : Word} {n : Nat} (h : exec i s = .next (s.setI w)) (hw : w.toNat = n) :
    ∃ t, exec i s = .next t ∧ t.i.toNat = n ∧ KeepsRegsBut [] s t ∧ KeepsBut [.index] s t :=
  ⟨_, h, hw, fun _ _ => rfl, by simp⟩

/-- Settles O40: each is one write of I. -/
theorem indexRegisterWrites : Obligations.IndexRegisterWrites :=
  ⟨decodesAs_nnn fun _ => ⟨rfl, rfl⟩, decodesAs_xs fun _ => ⟨rfl, rfl⟩, decodesAs_xs fun _ => ⟨rfl, rfl⟩,
    fun nnn _ => exec_setI rfl (Addr.toWord_toNat nnn), fun _ _ => exec_setI rfl (add_zeroExtend_toNat ..),
    fun _ _ => exec_setI rfl (glyphAddr_toNat _)⟩

/-! ## Bytes stored from I up (R153, R154) -/

theorem read_writeBytes_dataAddr {s : State} {bs : List Byte} {k : Nat} (h : dataAddr s 0 + bs.length ≤ memSize)
    (hk : k < bs.length) : (s.mem.writeBytes (dataAddr s 0) bs).read (dataAddr s k) = bs.getD k 0#8 := by
  have hin : dataAddr s 0 ≤ dataAddr s k ∧ dataAddr s k < dataAddr s 0 + bs.length := by
    simp only [dataAddr_eq]
    omega
  have hoff : dataAddr s k - dataAddr s 0 = k := Nat.add_sub_cancel_left ..
  rw [Memory.read_writeBytes _ _ _ _ h, if_pos hin, hoff]

theorem keepsBytesOutside_writeBytes {s : State} {bs : List Byte} (h : dataAddr s 0 + bs.length ≤ memSize) :
    KeepsBytesOutside (dataAddr s 0) bs.length s (s.setMem (s.mem.writeBytes (dataAddr s 0) bs)) := by
  intro k hk
  have hout : ¬(dataAddr s 0 ≤ k ∧ k < dataAddr s 0 + bs.length) := by omega
  rw [State.setMem_mem, Memory.read_writeBytes _ _ _ _ h, if_neg hout]

theorem exec_ldB_inRange {x : Reg} {s : State} (h : dataAddr s 0 + 3 ≤ memSize) :
    exec (.ldB x) s = .next (s.setMem (s.mem.writeBytes (dataAddr s 0) (decimalDigits (s.reg x)))) :=
  checkedAccess_inRange (.inr h)

/-- Each digit fits a byte: the greatest quotient by 100 is 2 (R153). -/
theorem decimalDigits_toNat (b : Byte) :
    (decimalDigits b).map BitVec.toNat = [b.toNat / 100, b.toNat / 10 % 10, b.toNat % 10] := by
  simp only [decimalDigits, List.map_cons, List.map_nil, BitVec.toNat_ofNat, List.cons.injEq, and_true]
  omega

theorem read_writeBytes_decimalDigits {s : State} {k : Nat} (b : Byte) (h : dataAddr s 0 + 3 ≤ memSize) (hk : k < 3) :
    ((s.mem.writeBytes (dataAddr s 0) (decimalDigits b)).read (dataAddr s k)).toNat
      = [b.toNat / 100, b.toNat / 10 % 10, b.toNat % 10].getD k 0 := by
  rw [read_writeBytes_dataAddr h hk, ← decimalDigits_toNat]
  exact (List.getD_map (decimalDigits b) 0#8 BitVec.toNat).symm

/-- Settles O41: the three bytes stored are the decimal digits. -/
theorem bcdStoresThreeDigits : Obligations.BcdStoresThreeDigits := by
  refine ⟨decodesAs_xs fun _ => ⟨rfl, rfl⟩, fun x s h => ?_⟩
  have hfit : dataAddr s 0 + 3 ≤ memSize := Nat.succ_le_succ h
  have hdigit (k : Nat) (hk : k < 3) := read_writeBytes_decimalDigits (s.reg x) hfit hk
  exact ⟨_, exec_ldB_inRange hfit, hdigit 0 (by decide), hdigit 1 (by decide), hdigit 2 (by decide),
    keepsBytesOutside_writeBytes (bs := decimalDigits (s.reg x)) hfit, fun _ _ => rfl, by simp⟩

/-- Settles O42: the bytes stored are those of V0 to Vx, in order. -/
theorem blockStoreWritesRegisters : Obligations.BlockStoreWritesRegisters := by
  refine ⟨decodesAs_xs fun _ => ⟨rfl, rfl⟩, fun x s h => ?_⟩
  have hlen := regBlock_length s x
  have hfit : dataAddr s 0 + (regBlock s x).length ≤ memSize := hlen ▸ Nat.succ_le_succ h
  exact ⟨_, exec_ldMemV_inRange h, fun r => read_writeBytes_regBlock h,
    hlen ▸ keepsBytesOutside_writeBytes hfit, fun _ _ => rfl, by simp⟩

/-! ## The block load (R155) -/

theorem exec_ldVMem_inRange {x : Reg} {s : State} (h : s.i.toNat + x.toNat ≤ 0xFFF) :
    exec (.ldVMem x) s = .next (s.setV (loadedBlock s x)) :=
  checkedAccess_inRange (.inr (Nat.succ_le_succ h))

/-- Settles O43: the register file is replaced by the loaded one, which keeps the registers above Vx. -/
theorem blockLoadReadsRegisters : Obligations.BlockLoadReadsRegisters := by
  refine ⟨decodesAs_xs fun _ => ⟨rfl, rfl⟩, fun x s h => ?_⟩
  refine ⟨_, exec_ldVMem_inRange h, fun r hr => ?_, fun r hr => ?_, by simp⟩
  · rw [loadedBlock_reg, if_pos hr]
  · rw [loadedBlock_reg, if_neg (Nat.not_le.2 hr)]

end Sys2Proof.Machine

namespace Sys2Proof.Machine

/-! The family of the display: CLS, and DRW as the pixelwise exclusive or of a sprite. -/

/-- Settles O45: the surface is replaced by the blank one. -/
theorem clsClearsTheDisplay : Obligations.ClsClearsTheDisplay :=
  ⟨rfl, fun _ => ⟨_, rfl, fbRead_fbBlank, fun _ _ => rfl, by simp⟩⟩

/-! ## Bytes of the display as pixels (R37) -/

/-- Bit `k` of byte column `col` is the pixel `8 * col + (7 - k)`: each bit of a display row is one of its pixels. -/
theorem forall_pixel_iff {P : Fin 8 → Nat → Prop} :
    (∀ px : Fin 64, P ⟨px.val / 8, by omega⟩ (7 - px.val % 8)) ↔ ∀ col k, k < 8 → P col k := by
  refine ⟨fun h col k hk => ?_, fun h px => h _ _ (by omega)⟩
  have hcol : (8 * col.val + (7 - k)) / 8 = col.val := by omega
  have hbit : 7 - (8 * col.val + (7 - k)) % 8 = k := by omega
  simpa only [hcol, hbit] using h ⟨8 * col.val + (7 - k), by omega⟩

/-- Two surfaces with the same pixels are one. -/
theorem pixel_ext {d e : Display} (h : ∀ px py, pixel d px py = pixel e px py) : d = e :=
  fbRead_ext fun row _ => BitVec.eq_of_getLsbD_eq fun k hk =>
    forall_pixel_iff (P := fun col k => (fbRead d row col).getLsbD k = (fbRead e row col).getLsbD k).1
      (fun px => h px row) _ k hk

theorem pixel_fbBlank (px : Fin 64) (py : Fin 32) : pixel fbBlank px py = false := by
  rw [pixel, fbRead_fbBlank, BitVec.getLsbD_zero]

theorem exists_pixel_of_ne_fbBlank {d : Display} (h : d ≠ fbBlank) : ∃ px py, pixel d px py = true := by
  by_contra hnone
  refine h (pixel_ext fun px py => ?_)
  rw [pixel_fbBlank, ← Bool.not_eq_true]
  exact fun hlit => hnone ⟨px, py, hlit⟩

/-- No collision: no bit is set in both bytes (R167). -/
theorem collides_eq_false_iff (a b : Byte) :
    collides a b = false ↔ ∀ k, k < 8 → a.getLsbD k = true → b.getLsbD k = false := by
  rw [collides, bne_eq_false_iff_eq, BitVec.eq_of_getLsbD_eq_iff]
  refine forall₂_congr fun k _ => ?_
  rw [BitVec.getLsbD_and, BitVec.getLsbD_zero]
  cases a.getLsbD k <;> simp

/-! ## A blit as pixels (R166, R167, R169) -/

section Blit

variable (m : Memory) (a n : Nat) (d : Display) (vx vy : Byte)

theorem Memory.readBytes_length : (m.readBytes a n).length = n := by
  rw [Memory.readBytes, List.length_map, List.length_range]

theorem Memory.readBytes_getD (k : Nat) :
    (m.readBytes a n).getD k 0#8 = if k < n then m.read (a + k) else 0#8 := by
  split <;> simp [Memory.readBytes, *]

/-- The contribution of a sprite to a display byte, as pixels: what the sprite covers with a set bit. -/
theorem contribution_pixel (px : Fin 64) (py : Fin 32) :
    (rowPart vx ((m.readBytes a n).getD (rowDistance vy 0 py) 0#8) ⟨px.val / 8, by omega⟩).getLsbD (7 - px.val % 8)
      = spriteCovers m a vx vy n px py := by
  rw [rowPart_bit, Memory.readBytes_getD, rowDistance, Nat.add_zero, spriteCovers]
  by_cases hrow : (py.val + 32 - vy.toNat % 32) % 32 < n <;> simp [hrow]

variable {n} (hn : n ≤ 32)
include hn

theorem pixel_blit (px : Fin 64) (py : Fin 32) :
    pixel (blit d vx vy (m.readBytes a n)).1 px py = (pixel d px py ^^ spriteCovers m a vx vy n px py) := by
  have hlen : (m.readBytes a n).length + 0 ≤ 32 := (m.readBytes_length a n).trans_le hn
  rw [pixel, blit, blitRows_read _ _ _ _ _ hlen, BitVec.getLsbD_xor, contribution_pixel, pixel]

/-- No byte of the sprite meets a set bit exactly when no lit pixel is covered. -/
theorem blit_flag_eq_false_iff : (blit d vx vy (m.readBytes a n)).2 = false ↔
    ∀ px py, pixel d px py = true → spriteCovers m a vx vy n px py = false := by
  have hlen : (m.readBytes a n).length + 0 ≤ 32 := (m.readBytes_length a n).trans_le hn
  rw [blit, ← Bool.not_eq_true, blitRows_flag _ _ _ _ _ hlen]
  simp only [Bool.false_eq_true, false_or, not_exists, Bool.not_eq_true, collides_eq_false_iff]
  rw [forall_comm (β := Fin 32)]
  refine forall_congr' fun py => forall_pixel_iff.symm.trans (forall_congr' fun px => ?_)
  rw [contribution_pixel, pixel]

end Blit

/-! ## DRW in range (R166 to R169) -/

/-- Whether the sprite DRW Vx, Vy, n draws from a state covers a pixel with a set bit. -/
def drawCovers (x y : Reg) (n : Nibble) (s : State) (px : Fin 64) (py : Fin 32) : Bool :=
  spriteCovers s.mem (dataAddr s 0) (s.reg x) (s.reg y) n.toNat px py

/-- The state after a DRW whose sprite lies in memory. -/
def drawn (x y : Reg) (n : Nibble) (s : State) : State :=
  let p := blit s.fb (s.reg x) (s.reg y) (s.mem.readBytes (dataAddr s 0) n.toNat)
  (s.setFb p.1).setReg Reg.vf (flagByte p.2)

section Drawn

/-- A sprite has at most 15 rows, so no two of them fall on one display row. -/
theorem nibble_toNat_le_32 (n : Nibble) : n.toNat ≤ 32 := n.isLt.le.trans (by decide)

variable {x y : Reg} {n : Nibble} {s : State}

theorem exec_drw_inRange (h : s.i.toNat + n.toNat ≤ 0x1000 ∨ n = 0x0#4) :
    exec (.drw x y n) s = .next (drawn x y n s) :=
  checkedAccess_inRange (h.symm.imp_left (congrArg BitVec.toNat))

theorem pixel_drawn (px : Fin 64) (py : Fin 32) :
    pixel (drawn x y n s).fb px py = (pixel s.fb px py ^^ drawCovers x y n s px py) :=
  pixel_blit _ _ _ _ _ (nibble_toNat_le_32 n) px py

theorem drawn_reg_vf_of_no_collision
    (h : ∀ px py, pixel s.fb px py = true → drawCovers x y n s px py = false) :
    (drawn x y n s).reg Reg.vf = 0#8 := by
  rw [drawn, State.reg_setReg_self, (blit_flag_eq_false_iff _ _ _ _ _ (nibble_toNat_le_32 n)).2 h]
  rfl

theorem drawn_reg_vf_of_collision
    (h : ∃ px py, pixel s.fb px py = true ∧ drawCovers x y n s px py = true) :
    (drawn x y n s).reg Reg.vf = 1#8 := by
  obtain ⟨px, py, hlit, hcovers⟩ := h
  have hflag : (blit s.fb (s.reg x) (s.reg y) (s.mem.readBytes (dataAddr s 0) n.toNat)).2 ≠ false := fun hf => by
    rw [drawCovers, (blit_flag_eq_false_iff _ _ _ _ _ (nibble_toNat_le_32 n)).1 hf px py hlit] at hcovers
    cases hcovers
  rw [drawn, State.reg_setReg_self, Bool.eq_true_of_not_eq_false hflag]
  rfl

theorem keepsRegsBut_drawn : KeepsRegsBut [Reg.vf] s (drawn x y n s) :=
  (keepsRegsBut_setReg _ (List.mem_singleton_self _)).2 fun _ _ => rfl

theorem keepsBut_drawn : KeepsBut [.display] s (drawn x y n s) := by
  simp [drawn]

/-- A second draw at the same registers, none of them VF, covers the same pixels. -/
theorem drawCovers_drawn (hx : x ≠ Reg.vf) (hy : y ≠ Reg.vf) :
    drawCovers x y n (drawn x y n s) = drawCovers x y n s := by
  have hvx : (drawn x y n s).reg x = s.reg x := State.reg_setReg_of_ne _ _ hx
  have hvy : (drawn x y n s).reg y = s.reg y := State.reg_setReg_of_ne _ _ hy
  funext px py
  rw [drawCovers, hvx, hvy]
  rfl

end Drawn

theorem decodesAs_drw : DecodesAs 0xF000#16 0xD000#16 fun w => .drw (fieldX w) (fieldY w) (fieldN w) := by
  intro w h
  have ho : op w = 0xD#4 := op_of_mask_F000 h
  exact decode_of_encode_eq rfl ((congrArg (packXYN · _ _ _) ho.symm).trans (packXYN_fields w))

/-- Settles O46: pixel by pixel, the bits of the contributions are what the sprite covers. -/
theorem drawIsPixelwiseXor : Obligations.DrawIsPixelwiseXor := by
  refine ⟨decodesAs_drw, fun x y n s h =>
    ⟨_, exec_drw_inRange h, pixel_drawn, ?_, keepsRegsBut_drawn, keepsBut_drawn⟩⟩
  by_cases hc : ∃ px py, pixel s.fb px py = true ∧ drawCovers x y n s px py = true
  · exact .inl ⟨drawn_reg_vf_of_collision hc, hc⟩
  · have hnone : ∀ px py, pixel s.fb px py = true → drawCovers x y n s px py = false := by simpa using hc
    exact .inr ⟨drawn_reg_vf_of_no_collision hnone, hnone⟩

/-- Settles O47: a sprite of no rows is the empty list, whose blit gives back the display and no collision. -/
theorem drawOfNoRows : Obligations.DrawOfNoRows := by
  intro x y s
  have hdrawn : drawn x y 0x0#4 s = s.setReg Reg.vf 0#8 := rfl
  exact ⟨_, hdrawn ▸ exec_drw_inRange (.inr rfl), State.reg_setReg_self .., by simp, by simp⟩

/-- Settles O48: the exclusive or with the same pixels twice restores the display; from a clear one, the pixels lit between
the two draws are those the sprite covers. -/
theorem secondDrawErasesTheFirst : Obligations.SecondDrawErasesTheFirst := by
  intro x y n s hx hy h
  have hcovers := drawCovers_drawn (n := n) (s := s) hx hy
  refine ⟨_, _, exec_drw_inRange (.inl h), exec_drw_inRange (.inl h), pixel_ext fun px py => ?_, fun hs => ⟨?_, ?_⟩⟩
  · rw [pixel_drawn, pixel_drawn, hcovers, Bool.xor_assoc, Bool.xor_self, Bool.xor_false]
  · refine drawn_reg_vf_of_no_collision fun px py hlit => ?_
    simp [hs, pixel_fbBlank] at hlit
  · intro hne
    obtain ⟨px, py, hlit⟩ := exists_pixel_of_ne_fbBlank hne
    refine drawn_reg_vf_of_collision ⟨px, py, hlit, ?_⟩
    rwa [pixel_drawn, hs, pixel_fbBlank, Bool.false_xor, ← hcovers] at hlit

end Sys2Proof.Machine

namespace Sys2Proof

/-! The family of keys and timers: a key as a byte, the wait for a key, what a key does, and the timer transfers. -/

theorem Nibble.toByte_toNat (k : Nibble) : (Nibble.toByte k).toNat = k.toNat :=
  BitVec.toNat_setWidth_of_le (by decide)

/-- A key equals a byte as numbers: a byte above 0x0F is no key. -/
theorem Nibble.toByte_eq_iff (k : Nibble) (b : Byte) : Nibble.toByte k = b ↔ k.toNat = b.toNat := by
  rw [← BitVec.toNat_inj, Nibble.toByte_toNat]

end Sys2Proof

namespace Sys2Proof.Machine

/-! ## Awaiting a key (R182) -/

theorem State.setStatus_of_eq {s : State} {w : Status} (h : s.status = w) : s.setStatus w = s := by
  subst h
  rfl

theorem step_of_awaitKey {s : State} {kind : KeyOp} {x : Reg} (h : s.status = .awaitKey kind x) :
    step s = exec (kind.instr x) s := by
  simp only [step, transition, h]

/-- Settles O15: going on with the wait writes the status it already has, and no key instruction writes a timer. -/
theorem keyWaitHoldsTheState : Obligations.KeyWaitHoldsTheState := by
  intro s kind x hs
  rw [step_of_awaitKey hs]
  refine ⟨fun hnone => ?_, fun t ht => ⟨exec_dt ht fun y => ?_, exec_st ht fun y => ?_⟩⟩
  · obtain ⟨onKey, he⟩ := exec_keyInstr kind x s
    rw [he, keyWait_of_noAnswer hnone, State.setStatus_of_eq hs]
  · cases kind <;> exact Instr.noConfusion
  · cases kind <;> exact Instr.noConfusion

/-! ## A key answered (R175, R176, R178) -/

/-- The state once a key has answered the request, before the instruction acts on the key. -/
def State.requestClosed (s : State) (rest : List KeyAnswer) : State := (s.setKeyAnswers rest).setStatus .running

@[simp] theorem State.requestClosed_reg (s : State) (rest : List KeyAnswer) (r : Reg) :
    (s.requestClosed rest).reg r = s.reg r := rfl

@[simp] theorem State.requestClosed_pc (s : State) (rest : List KeyAnswer) : (s.requestClosed rest).pc = s.pc := rfl

section Answered

variable {s : State} {k : Nibble} {rest : List KeyAnswer}

theorem keepsBut_requestClosed {l : List Part} (ha : .answers ∈ l) (hs : .status ∈ l) :
    KeepsBut l s (s.requestClosed rest) := by
  simp [State.requestClosed, ha, hs]

theorem keyWait_of_key {kind : KeyOp} {x : Reg} {f : Nibble → State → State} (h : s.keyAnswers = .key k :: rest) :
    keyWait kind x f s = .next (f k (s.requestClosed rest)) := by
  rw [keyWait, h, State.requestClosed]

theorem exec_skp_of_key {x : Reg} (h : s.keyAnswers = .key k :: rest) :
    exec (.skp x) s = .next (skipIf (k.toByte == s.reg x) (s.requestClosed rest)) := by
  simp only [exec, execSkp, keyWait_of_key h, State.requestClosed_reg]

theorem exec_sknp_of_key {x : Reg} (h : s.keyAnswers = .key k :: rest) :
    exec (.sknp x) s = .next (skipIf (k.toByte != s.reg x) (s.requestClosed rest)) := by
  simp only [exec, execSknp, keyWait_of_key h, State.requestClosed_reg]

theorem exec_ldVK_of_key {x : Reg} (h : s.keyAnswers = .key k :: rest) :
    exec (.ldVK x) s = .next ((s.requestClosed rest).setReg x k.toByte) := by
  simp only [exec, execLdVK, keyWait_of_key h]

/-- A key instruction that, answered a key, skips on the condition `P`. -/
theorem exec_keySkip {i : Instr} {c : Bool} {P : Prop} [Decidable P]
    (h : exec i s = .next (skipIf c (s.requestClosed rest))) (hc : c = true ↔ P) : ∃ t, exec i s = .next t
      ∧ t.pc = (if P then s.pc + 2#16 else s.pc) ∧ t.keyAnswers = rest ∧ t.status = .running
      ∧ KeepsRegsBut [] s t ∧ KeepsBut [.pc, .answers, .status] s t := by
  refine ⟨_, h, ?_, skipIf_keyAnswers .., skipIf_status .., fun r _ => skipIf_reg .., ?_⟩
  · simp only [skipIf_pc, hc, State.requestClosed_pc]
  · exact (keepsBut_skipIf c (by decide)).2 (keepsBut_requestClosed (by decide) (by decide))

end Answered

/-- Settles O49: either one skips on its comparison of the key with Vx. -/
theorem keySkips : Obligations.KeySkips := by
  refine ⟨decodesAs_xs fun _ => ⟨rfl, rfl⟩, decodesAs_xs fun _ => ⟨rfl, rfl⟩, fun x s k rest h => ⟨?_, ?_⟩⟩
  · exact exec_keySkip (exec_skp_of_key h) (beq_iff_eq.trans (Nibble.toByte_eq_iff k _))
  · exact exec_keySkip (exec_sknp_of_key h) (bne_iff_ne.trans (not_congr (Nibble.toByte_eq_iff k _)))

/-- Settles O50: the key is one register write. -/
theorem keyIsLoaded : Obligations.KeyIsLoaded := by
  refine ⟨decodesAs_xs fun _ => ⟨rfl, rfl⟩, fun x s k rest h => ⟨_, exec_ldVK_of_key h, ?_, rfl, rfl, ?_, ?_⟩⟩
  · rw [State.reg_setReg_self, Nibble.toByte_toNat]
  · exact (keepsRegsBut_setReg _ (List.mem_singleton_self x)).2 fun _ _ => rfl
  · exact (keepsBut_setReg ..).2 (keepsBut_requestClosed (by decide) (by decide))

/-! ## The timer transfers (R177, R179, R180) -/

section TimerTicks

variable {x : Reg} {s : State} (hs : s.status = .running)
include hs

/-- LD Vx, DT reads DT as the tick's first step left it. -/
theorem step_of_ldVDT (hp : s.pc.toNat ≤ 0xFFE) (hd : decode (fetchWord s) = .ok (.ldVDT x)) :
    step s = .next ((advancePc (tickTimers s)).setReg x (countDown s.dt)) := step_of_decode_ok hs hp hd

theorem step_of_ldDTV (hp : s.pc.toNat ≤ 0xFFE) (hd : decode (fetchWord s) = .ok (.ldDTV x)) :
    step s = .next ((advancePc (tickTimers s)).setDt (s.reg x)) := step_of_decode_ok hs hp hd

/-- After LD DT, Vx the next tick counts the value written down before LD Vy, DT reads it. -/
theorem step_step_of_ldDTV_ldVDT {y : Reg} (hp : s.pc.toNat ≤ 0xFFC) (hd : decode (fetchWord s) = .ok (.ldDTV x))
    (hd' : decode (s.mem.readWord (s.pc.toNat + 2)) = .ok (.ldVDT y)) :
    ∃ t u, step s = .next t ∧ t.dt = s.reg x ∧ step t = .next u ∧ u.reg y = countDown (s.reg x) := by
  have hfirst : s.pc.toNat ≤ 0xFFE := by omega
  have hpc : (s.pc + 2#16).toNat = s.pc.toNat + 2 := advancePc_toNat hfirst
  have hsecond : (s.pc + 2#16).toNat ≤ 0xFFE := by omega
  rw [← hpc] at hd'
  exact ⟨_, _, step_of_ldDTV hs hfirst hd, rfl, step_of_ldVDT hs hsecond hd', State.reg_setReg_self ..⟩

end TimerTicks

/-- Settles O53: each transfer is one write; a tick of LD Vx, DT writes the value its first step counted down. -/
theorem timerTransfers : Obligations.TimerTransfers := by
  refine ⟨decodesAs_xs fun _ => ⟨rfl, rfl⟩, decodesAs_xs fun _ => ⟨rfl, rfl⟩, decodesAs_xs fun _ => ⟨rfl, rfl⟩,
    fun x s => ⟨_, rfl, State.reg_setReg_self .., by simp, by simp⟩, fun x s => ⟨_, rfl, rfl, fun _ _ => rfl, by simp⟩,
    fun x s => ⟨_, rfl, rfl, fun _ _ => rfl, by simp⟩, fun x s hs hp hd => ?_, fun x y s hs hp hd hd' => ?_⟩
  · refine ⟨_, step_of_ldVDT hs hp hd, ?_, countDown_toNat s.dt⟩
    rw [State.reg_setReg_self, countDown_toNat]
  · obtain ⟨t, u, ht, hdt, hu, hreg⟩ := step_step_of_ldDTV_ldVDT hs hp hd hd'
    exact ⟨t, u, ht, hdt, hu, hreg ▸ countDown_toNat (s.reg x)⟩

end Sys2Proof.Machine

/-! The family of exceptions: every live state steps, and what a state that ends in an error still holds. -/

namespace Sys2Proof.Machine

/-! ## Every instruction answers a next state -/

theorem checkedAccess_next (s t : State) (n : Nat) (i : Instr) : ∃ u, checkedAccess s n i (.next t) = .next u := by
  rcases checkedAccess_cases s n i (.next t) with ⟨_, _, h⟩ | ⟨_, h⟩
  · exact ⟨_, h⟩
  · exact ⟨_, h⟩

theorem exec_ret_next (s : State) : ∃ t, exec .ret s = .next t := by
  cases hs : s.stack with
  | cons w rest => exact ⟨_, exec_ret_of_cons hs⟩
  | nil =>
    cases hu : s.underflowPolicy with
    | fault => exact ⟨_, exec_ret_of_fault hs hu⟩
    | noop => exact ⟨_, exec_ret_of_noop hs hu⟩

theorem exec_call_next (nnn : Addr) (s : State) : ∃ t, exec (.call nnn) s = .next t := by
  rcases Nat.lt_or_ge s.stack.length stackDepth with hroom | hfull
  · exact ⟨_, exec_call_of_room nnn hroom⟩
  · exact ⟨_, exec_call_of_full nnn hfull⟩

theorem exec_keyInstr_next (kind : KeyOp) (x : Reg) (s : State) : ∃ t, exec (kind.instr x) s = .next t := by
  obtain ⟨onKey, he⟩ := exec_keyInstr kind x s
  rw [he]
  exact keyWait_next ..

/-- No instruction ends in a fault or a refusal. -/
theorem exec_next (i : Instr) (s : State) : ∃ t, exec i s = .next t := by
  cases i with
  | ret => exact exec_ret_next s
  | call nnn => exact exec_call_next nnn s
  | drw x y n | ldB x | ldMemV x | ldVMem x => exact checkedAccess_next ..
  | skp x => exact exec_keyInstr_next .skp x s
  | sknp x => exact exec_keyInstr_next .sknp x s
  | ldVK x => exact exec_keyInstr_next .load x s
  | _ => exact ⟨_, rfl⟩

theorem step_of_terminal {s : State} (h : s.status.terminal = true) : step s = .refused .terminalStatus := by
  cases hs : s.status with
  | halted r | error r => simp only [step, transition, hs]
  | running | awaitKey kind x => simp [hs, Status.terminal] at h

theorem step_next_of_running {s : State} (hs : s.status = .running) : ∃ t, step s = .next t := by
  rcases Nat.lt_or_ge 0xFFE s.pc.toNat with hp | hp
  · exact ⟨_, step_of_pcOutOfRange hs hp⟩
  cases hd : decode (fetchWord s) with
  | ok i =>
    rw [step_of_decode_ok hs hp hd]
    exact exec_next ..
  | error r => exact ⟨_, step_of_decode_error hs hp hd⟩

/-- Settles O9: a running machine ticks, and a waiting one executes its instruction again. -/
theorem everyLiveStateSteps : Obligations.EveryLiveStateSteps := by
  refine ⟨fun s => step_of_terminal, fun s h => ?_⟩
  cases hs : s.status with
  | running => exact step_next_of_running hs
  | awaitKey kind x =>
    rw [step_of_awaitKey hs]
    exact exec_keyInstr_next kind x s
  | halted r | error r => simp [hs, Status.terminal] at h

/-! ## Where an error comes from (R192, R193) -/

/-- An error that was not there before the execute step was raised by the instruction: a wait leaves another status, and
an effect leaves `running` or the status it found. -/
theorem raises_of_exec_error {i : Instr} {s t : State} {r : ErrorRecord} (hs : s.status ≠ .error r)
    (h : exec i s = .next t) (hr : t.status = .error r) : Raises i s t := by
  rcases exec_cases h with ⟨kind, x, _, rfl⟩ | hraises | hacts
  · cases hr
  · exact hraises
  · rcases acts_status hacts with hrun | ⟨hkeep, _⟩
    · cases hrun.symm.trans hr
    · exact absurd (hkeep.symm.trans hr) hs

/-- Settles O13: the error is the instruction's own, and raising writes the record. -/
theorem onlyListedErrorsAreRaised : Obligations.OnlyListedErrorsAreRaised := by
  intro i s t r hs h hr
  obtain ⟨code, answers, hc, rfl⟩ := raises_of_exec_error (by simp [hs]) h hr
  cases hr
  exact ⟨hc, rfl, rfl⟩

/-! ## What an error leaves (R196) -/

/-- A tick that ends in an error has counted the timers and moved PC (steps 1 and 3 of R80) and raised an error that names
the fetched word: the decoder's, or the executed instruction's. -/
theorem step_error_of_running {s t : State} {r : ErrorRecord} (hs : s.status = .running) (h : step s = .next t)
    (hr : t.status = .error r) : s.pc.toNat ≤ 0xFFE ∧ ∃ code answers,
      t = raiseError code (fetchWord s) ((advancePc (tickTimers s)).setKeyAnswers answers) := by
  rcases step_cases h with ⟨_, _, rfl⟩ | ⟨hp, _, i, hd, hx⟩ | ⟨hp, _, _, rfl⟩ | ⟨kind, x, hw, _⟩
  · cases hr
  · obtain ⟨code, answers, _, rfl⟩ := raises_of_exec_error (by simp [hs]) hx hr
    exact ⟨hp, code, answers, by rw [encode_of_decode hd]⟩
  · exact ⟨hp, _, s.keyAnswers, rfl⟩
  · cases hs.symm.trans hw

theorem eq_keyWaitCancelled_of_canRaise {kind : KeyOp} {x : Reg} {code : ErrorCode}
    (h : canRaise (kind.instr x) code = true) : code = .keyWaitCancelled := by
  cases kind <;> exact beq_iff_eq.1 h

/-- Settles O12: an error is raised over the state that the fetch left, or over the waiting state. -/
theorem errorsArePrecise : Obligations.ErrorsArePrecise := by
  refine ⟨fun s t r hs h hr => ?_, fun s t kind x r hs h hr => ?_⟩
  · obtain ⟨hp, code, answers, rfl⟩ := step_error_of_running hs h hr
    cases hr
    refine ⟨hp, BitVec.add_sub_cancel .., rfl, rfl, countDown_toNat s.dt, countDown_toNat s.st, fun _ _ => rfl, ?_⟩
    simp [advancePc]
  · rw [step_of_awaitKey hs] at h
    obtain ⟨code, answers, hc, rfl⟩ := raises_of_exec_error (by simp [hs]) h hr
    cases hr
    exact ⟨eq_keyWaitCancelled_of_canRaise hc, fun _ _ => rfl, by simp⟩

end Sys2Proof.Machine

/-! The family of reset: the first fetch. -/

namespace Sys2Proof.Machine

/-- The word a tick fetches is big-endian (R56). -/
theorem fetchWord_eq_wordOfBytes (s : State) :
    fetchWord s = wordOfBytes (s.mem.read s.pc.toNat) (s.mem.read (s.pc.toNat + 1)) := rfl

/-- Settles O26: loading a memory leaves PC at the reset vector. -/
theorem firstFetchIsAtTheResetVector : Obligations.FirstFetchIsAtTheResetVector := by
  have hreset : State.reset.pc = 0x200#16 := rfl
  refine ⟨hreset, fun m => ?_⟩
  have hpc : (State.reset.setMem m).pc.toNat = 0x200 := by rw [State.setMem_pc, hreset, BitVec.toNat_ofNat]
  rw [fetchWord_eq_wordOfBytes, hpc, State.setMem_mem]

end Sys2Proof.Machine

/-! The vectors of 95_test_vectors.md: the words that decode, and the assembly text. -/

namespace Sys2Proof

/-- A word decodes to the well-formed instruction that it is the encoding of, and to no other (R79, R87). -/
theorem decode_ok_iff {w : Word} {i : Instr} : decode w = .ok i ↔ i.wf = true ∧ encode i = w := by
  constructor
  · exact fun h => ⟨wf_of_decode h, Machine.encode_of_decode h⟩
  · rintro ⟨hwf, rfl⟩
    exact decode_encode hwf

/-- Settles O5: each word is the encoding of its instruction, which is well-formed. -/
theorem vectorWordsDecode : Obligations.VectorWordsDecode := by
  refine ⟨?drw, ?sys0, ?sys1E0, ?se, ?shl, ?skp, ?ldMem, ?jpV0⟩
  all_goals exact decode_ok_iff.2 (by decide)

/-- The line in an assembly error is the position of the first malformed line, counted from 1 (R94). -/
theorem assemble_malformed_succ_iff (text : Text) (k : Nat) :
    assemble text = .error (.malformed (k + 1)) ↔ (linesFrom [] text).findIdx? malformedLine = some k := by
  simp [assemble_malformed_iff, parseLines_error_iff]

/-- The words without a text are those of the unsupported rows (R97). -/
theorem disassemble_unsupported_iff {w : Word} :
    disassemble w = .error .unsupportedOpcode ↔ Machine.unsupportedRow w = true := by
  rw [← (unsupportedWordsAreExact w).1]
  unfold disassemble
  cases decode w <;> simp

/-- Settles O54: two lines parse, two texts have a malformed line, two words decode, and one lies in an unsupported row. -/
theorem assemblyVectors : Obligations.AssemblyVectors := by
  refine ⟨?ld, ?noSpace, ?drw, ?thirdLine, ?ldText, ?jpText, ?unsupported⟩
  case ld => exact (assemble_oneLine (by decide) (by decide) _).2 ⟨.ldVB 0xA#4 0x05#8, by decide⟩
  case drw => exact (assemble_oneLine (by decide) (by decide) _).2 ⟨.drw 0x1#4 0x2#4 0xF#4, by decide⟩
  case noSpace => exact (assemble_malformed_succ_iff _ 0).2 (by decide)
  case thirdLine => exact (assemble_malformed_succ_iff _ 2).2 (by decide)
  case ldText => exact disassemble_ok_iff.2 ⟨.ldVB 0xA#4 0x05#8, decode_ok_iff.2 (by decide), by decide⟩
  case jpText => exact disassemble_ok_iff.2 ⟨.jpV0 0x00F#12, decode_ok_iff.2 (by decide), by decide⟩
  case unsupported => exact disassemble_unsupported_iff.2 (by decide)

end Sys2Proof
